-- ==== Sys2Proof/Word.lean ====
section
/-! DEFINITION. The two word types of the controller (spec/00_scope.md R12, R13). -/

namespace Sys2Proof

/-- A byte: bit 7 the most significant, bit 0 the least (R12). -/
abbrev Byte := BitVec 8

/-- A 7-bit I2C target address (R20, R41). -/
abbrev I2cAddr := BitVec 7

end Sys2Proof
end

