-- ==== Sys2Proof/Machine/State.lean ====
section
/-! DEFINITION. The state of the controller (spec/10_state.md), the events it emits (00_scope.md R11), the reasons a step
stops, and the state at power-on (R29, 70_reset_and_hazards.md R170). -/

namespace Sys2Proof.Machine

/-- The output alphabet (R11). -/
inductive Event where
  /-- `Tx(a, v)`: one complete I2C write of the byte `v` to the 7-bit address `a`. -/
  | tx (addr : I2cAddr) (value : Byte)
  /-- `Wait(t)`: a blocking delay of at least `us` microseconds. -/
  | wait (us : Nat)
  deriving DecidableEq, Repr

/-- The register file DisplayState (R13, R20 to R22). A register that nothing has written since power-on has its
`...Written` bit clear (R29); what its value field holds then is read by nothing (log entry 1). -/
structure DisplayState where
  /-- `ADDR` (R20). -/
  addr : I2cAddr
  /-- `BL` (R21). -/
  bl : Bool
  /-- `RS` (R22). -/
  rs : Bool
  /-- Whether `ADDR` has been written (R29, R30). -/
  addrWritten : Bool
  /-- Whether `BL` has been written (R29, R30). -/
  blWritten : Bool
  /-- Whether `RS` has been written (R29, R30). -/
  rsWritten : Bool
  /-- The model's own: how many reads of unwritten registers have drawn a free value (log entry 2). -/
  draws : Nat
  deriving DecidableEq, Repr

/-- One place of a pending trace (R26): the event, and the register file as it is when that event is emitted, every
register write the pseudocode has before the event included. -/
structure Slot where
  regs : DisplayState
  event : Event
  deriving DecidableEq, Repr

/-- The whole machine. The block has no memory (R40), so there is no memory field. -/
structure State where
  /-- The register file. -/
  regs : DisplayState
  /-- The sequence position (R26): `none` is idle, `some k` is the index of the next pending event. -/
  pc : Option Nat
  /-- The trace of the operation in progress (R26); empty when idle. -/
  pending : List Slot
  /-- Every event emitted since power-on, oldest first (R18). -/
  trace : List Event
  /-- The bytes the host has presented on the command port and the controller has not taken yet, first byte first (R60). -/
  port : List Byte
  deriving DecidableEq, Repr

/-- The faults. The block itself has none (R150). -/
inductive Fault where
  /-- Raised by `advance`, so by `step` and `microStep`, in a state whose sequence position lies past the end of its
  pending trace: R26 gives no step there. Safe: no run reaches such a state (log entry 8). -/
  | sequencePosition
  deriving DecidableEq, Repr

/-- The refusals. -/
inductive Refusal where
  /-- Raised by an arm of `exec` for an instruction without a meaning; no arm raises it. Safe. -/
  | notModelled (mnemonic : String)
  /-- Raised by `step` and `microStep` for an opcode of 0x0A to 0xFF (R68). Safe: no effect is given (D2). -/
  | reservedOpcode (opcode : Byte)
  /-- Raised by `step` and `microStep` for SET_ADDRESS with bit 7 of its operand set (R69 (a)). Safe (D2). -/
  | reservedOperand (operand : Byte)
  /-- Raised by a meaning that is called while an operation is in progress (R26, R178, U13); `step` never does. Safe. -/
  | busy
  deriving DecidableEq, Repr

/-- The register file at power-on: nothing written (R29, R170). The three values are placeholders (log entry 1). -/
def DisplayState.powerOn : DisplayState where
  addr := 0
  bl := false
  rs := false
  addrWritten := false
  blWritten := false
  rsWritten := false
  draws := 0

/-- The machine at power-on (R29, R170, R172): nothing written, idle, nothing emitted, nothing on the command port. -/
def State.reset : State where
  regs := DisplayState.powerOn
  pc := none
  pending := []
  trace := []
  port := []

end Sys2Proof.Machine
end

