-- ==== Sys2Proof/Config.lean ====
section
/-! DEFINITION. What an implementation fixes before the first operation (spec/00_scope.md R6, R8; 10_state.md R24) and
the free values a read of an unwritten register draws (10_state.md R29). What the spec leaves open has no body: a theorem
about the machine holds for every value. -/

namespace Sys2Proof.Config

/-- `ROWS`: an integer in 1, 2, 3, 4 (R6). -/
inductive Rows where
  | one
  | two
  | three
  | four
  deriving DecidableEq, Repr, Inhabited

/-- The number of rows. -/
def Rows.count : Rows → Nat
  | .one => 1
  | .two => 2
  | .three => 3
  | .four => 4

/-- A bus primitive `TRANSPORT` (R6): the events that handing it one byte for one address appends to the trace. It
returns nothing to the controller (R80, R152). -/
abbrev Transport := I2cAddr → Byte → List Machine.Event

/-- The value R6 gives `TRANSPORT`: the I2C write of R80, one complete transaction. -/
def i2cWrite : Transport := fun addr value => [.tx addr value]

/-- The configuration record of R6 and R8, read-only for the life of the block (R24). -/
structure Params where
  /-- `CFG_ADDR`, the 7-bit form (R6, C1). -/
  cfgAddr : I2cAddr
  /-- `CFG_BL` (R6). -/
  cfgBl : Bool
  /-- `COLUMNS`, at least 1 (R6); read by no operation (C2). -/
  columns : PNat
  /-- `ROWS` (R6); read by no operation (C2). -/
  rows : Rows
  /-- `CMD_FUNCTION_SET`, no number in the source (R8, D18). -/
  cmdFunctionSet : Byte
  /-- `CMD_DISPLAY_ON`, no number in the source (R8, D18). -/
  cmdDisplayOn : Byte
  /-- `CMD_ENTRY_INC`, no number in the source (R8, D18). -/
  cmdEntryInc : Byte
  /-- `TRANSPORT`, the replaceable bus primitive (R6, R80, R163; log entry 14). -/
  transport : Transport
  deriving Inhabited

/-- The parameters of this machine that are OPEN in the spec (D18, D22, D23): no value of them can be proved (log entry
10). Its transport is not used. -/
opaque openParams : Params

/-- The configuration of this machine: the open parameters, and the value R6 gives `TRANSPORT`. -/
def params : Params := { openParams with transport := i2cWrite }

/-- The address that the read number `n` of an unwritten `ADDR` yields (R29, D5; log entry 2). -/
opaque freeAddr : Nat → I2cAddr

/-- The bit that the read number `n` of an unwritten `BL` yields (R29, D5; log entry 2). -/
opaque freeBl : Nat → Bool

/-- The defaults the source states for the address and the backlight (R6), with the command bytes the spec suggests
[PRESUMED, from general knowledge: G1 to G3] and the geometry of the source's scenario (16 by 2). The machine does not
use it; the tests do. -/
def suggested : Params where
  cfgAddr := 0x27
  cfgBl := true
  columns := 16
  rows := .two
  cmdFunctionSet := 0x28
  cmdDisplayOn := 0x0C
  cmdEntryInc := 0x06
  transport := i2cWrite

end Sys2Proof.Config
end

