-- ==== Sys2Proof/Machine/Constants.lean ====
section
/-! DEFINITION. The numbers the spec states: minimum waits in microseconds (spec/00_scope.md R7, requested exactly, D19)
and the bytes the sequences send (R8). -/

namespace Sys2Proof.Machine

/-- `T_PW`, between enable set and enable clear (R7). -/
def tPw : Nat := 1
/-- `T_SETTLE`, after enable clear (R7). -/
def tSettle : Nat := 50
/-- `T_CLR`, after the command of `clear` and `home` (R7). -/
def tClr : Nat := 2000
/-- `T_STEP`, after each transfer of `init` steps 2 to 8 (R7). -/
def tStep : Nat := 5000
/-- `T_POR`, `init` step 1 (R7). -/
def tPor : Nat := 40000

/-- `CMD_CLEAR` (R8). -/
def cmdClear : Byte := 0x01
/-- `CMD_HOME` (R8). -/
def cmdHome : Byte := 0x02
/-- The wake nibble `0x3_` (R8). -/
def wakeNibble : Byte := 0x30
/-- The 4-bit nibble `0x2_` (R8). -/
def fourBitNibble : Byte := 0x20

end Sys2Proof.Machine
end

