-- ==== Sys2Proof/Machine/Flags.lean ====
section
/-! DEFINITION. The block has no condition codes (spec/10_state.md section 1). Its flag-like bits are the three control
bits of an expander byte (30_encoding.md R64, R66). -/

namespace Sys2Proof.Machine

/-- Bit 3, the backlight: `blbit(bl)` (R66). -/
def blBit (bl : Bool) : Byte := if bl then 0x08 else 0x00

/-- Bit 0, register-select: 1 for a character, 0 for a command (R64, R66). -/
def rsBit (rs : Bool) : Byte := if rs then 0x01 else 0x00

/-- Bit 2, the enable strobe (R64). -/
def enableBit : Byte := 0x04

end Sys2Proof.Machine
end

