-- ==== Sys2Proof/Machine/Operands.lean ====
section
/-! DEFINITION. How the values the block sends are assembled (spec/30_encoding.md R65 to R67). -/

namespace Sys2Proof.Machine

/-- `hi(v) = v & 0xF0` (R65). -/
def hiNibble (v : Byte) : Byte := v &&& 0xF0

/-- `lo(v) = (v << 4) & 0xF0` (R65). -/
def loNibble (v : Byte) : Byte := (v <<< 4) &&& 0xF0

/-- `data(n, rs)`: the nibble in bits 7:4 and register-select in bit 0; bits 3:0 of `n` are discarded (R66, R45). -/
def dataByte (n : Byte) (rs : Bool) : Byte := (n &&& 0xF0) ||| rsBit rs

/-- `xbyte(n, rs, bl, e)`: a whole expander byte (R66). -/
def xbyte (n : Byte) (rs bl e : Bool) : Byte :=
  dataByte n rs ||| blBit bl ||| (if e then enableBit else 0x00)

/-- `base(row)`: the row's command byte; every row but 1, 2 and 3 has the base of row 4 (R67, R102, R104). -/
def rowBase (row : Int) : Int :=
  if row = 1 then 0x80 else if row = 2 then 0xC0 else if row = 3 then 0x94 else 0xD4

/-- `gotocmd(col, row)`: over integers, the column clamped below at 1, the sum taken modulo 256 (R67, D10). -/
def gotoCmd (col row : Int) : Byte := BitVec.ofInt 8 (rowBase row + max col 1 - 1)

/-- An 8-bit unsigned coordinate of the command port as the integer of the semantic rules (R62, D6). -/
def coord (b : Byte) : Int := (b.toNat : Int)

end Sys2Proof.Machine
end

