-- ==== Sys2Proof/Machine/Ops.lean ====
section
/-! DEFINITION. The primitives of the pseudocode (spec/00_scope.md R14), the internal micro-operations of
40_transport_nibble_byte.md, and the two ways an operation's pseudocode becomes a transition: whole (R10) or as a pending
trace (10_state.md R26). -/

namespace Sys2Proof.Machine

/-- A run of pseudocode in progress: the registers now, and the events so far, each with the registers as of that event. -/
structure Run where
  regs : DisplayState
  slots : List Slot
  deriving DecidableEq, Repr

/-- A run that has done nothing yet. -/
def Run.start (regs : DisplayState) : Run := { regs := regs, slots := [] }

/-- The trace of a run (R10). -/
def Run.events (r : Run) : List Event := r.slots.map Slot.event

/-- Append an event to the trace (R14). -/
def emit (e : Event) (r : Run) : Run := { r with slots := r.slots ++ [{ regs := r.regs, event := e }] }

/-- Append events in order. -/
def emitAll : List Event → Run → Run
  | [], r => r
  | e :: es, r => emitAll es (emit e r)

/-- `x[ADDR] <- a` (R13, R20). -/
def writeAddr (a : I2cAddr) (r : Run) : Run :=
  { r with regs := { r.regs with addr := a, addrWritten := true } }

/-- `x[BL] <- b` (R13, R21). -/
def writeBl (b : Bool) (r : Run) : Run :=
  { r with regs := { r.regs with bl := b, blWritten := true } }

/-- `x[RS] <- b` (R13, R22). -/
def writeRs (b : Bool) (r : Run) : Run :=
  { r with regs := { r.regs with rs := b, rsWritten := true } }

/-- Count one draw of a free value (log entry 2). -/
def countDraw (r : Run) : Run := { r with regs := { r.regs with draws := r.regs.draws + 1 } }

/-- `x[ADDR]`: the register, or a free draw while it is unwritten (R29, D5; log entry 2). -/
def readAddr (r : Run) : I2cAddr × Run :=
  if r.regs.addrWritten then (r.regs.addr, r) else (Config.freeAddr r.regs.draws, countDraw r)

/-- `x[BL]`: the register, or a free draw while it is unwritten (R29, D5; log entry 2). -/
def readBl (r : Run) : Bool × Run :=
  if r.regs.blWritten then (r.regs.bl, r) else (Config.freeBl r.regs.draws, countDraw r)

/-- `x[RS]`. Every read follows a write inside the same `write_byte`, so none meets an unwritten register (R22, R29). -/
def readRs (r : Run) : Bool := r.regs.rs

/-- `Wait(t)` (R14). -/
def wait (us : Nat) (r : Run) : Run := emit (.wait us) r

/-- `send_expander_byte(value)` (R80): `ADDR` is read at the moment of the call; `value` is handed as it is to the bus
primitive, the replaceable parameter `TRANSPORT` (R6). -/
def sendExpanderByte (transport : Config.Transport) (value : Byte) (r : Run) : Run :=
  emitAll (transport (readAddr r).1 value) (readAddr r).2

/-- `write_nibble(nibble, register_select, backlight)` (R82). -/
def writeNibble (transport : Config.Transport) (nibble : Byte) (rs bl : Bool) (r : Run) : Run :=
  let r := sendExpanderByte transport (xbyte nibble rs bl false) r
  let r := sendExpanderByte transport (xbyte nibble rs bl true) r
  let r := wait tPw r
  let r := sendExpanderByte transport (xbyte nibble rs bl false) r
  wait tSettle r

/-- `call write_nibble(nibble, rs, x[BL])`: `BL` is read once, at the call, so the three bytes of a nibble carry one
backlight bit (R81, C5; log entry 3). -/
def callNibble (transport : Config.Transport) (nibble : Byte) (rs : Bool) (r : Run) : Run :=
  writeNibble transport nibble rs (readBl r).1 (readBl r).2

/-- `write_byte(value, is_data)` (R83): `RS` is set, then the high nibble goes before the low one (R43). -/
def writeByte (transport : Config.Transport) (value : Byte) (isData : Bool) (r : Run) : Run :=
  let r := writeRs isData r
  let r := callNibble transport (hiNibble value) (readRs r) r
  callNibble transport (loNibble value) (readRs r) r

/-- `write_command(cmd)` (R84). -/
def writeCommand (transport : Config.Transport) (cmd : Byte) (r : Run) : Run := writeByte transport cmd false r

/-- `write_data(c)` (R85). -/
def writeData (transport : Config.Transport) (c : Byte) (r : Run) : Run := writeByte transport c true r

/-- `send_expander_byte(0x00 | blbit(x[BL]))`: the pins idle byte of `init` step 1 and the one byte of the backlight
operations (R112, R135, R136). -/
def sendIdleByte (transport : Config.Transport) (r : Run) : Run :=
  sendExpanderByte transport (0x00 ||| blBit (readBl r).1) (readBl r).2

/-- An operation carried out whole (R10): from idle, its pseudocode's register state and its trace appended. A second
operation while one is in progress has no move (R17, R26, R178): refused (U13, log entry 9). -/
def perform (procedure : Run → Run) (s : State) : Host.Outcome State Fault Refusal :=
  match s.pc with
  | some _ => .refused .busy
  | none =>
    let r := procedure (Run.start s.regs)
    .next { s with regs := r.regs, trace := s.trace ++ r.events }

/-- `issue(op)` of R26: the operation's trace becomes pending. A register write is committed with the event that follows
it in the pseudocode; an operation without events commits its writes here (log entry 8). -/
def issue (procedure : Run → Run) (s : State) : Host.Outcome State Fault Refusal :=
  match s.pc with
  | some _ => .refused .busy
  | none =>
    let r := procedure (Run.start s.regs)
    .next { s with
      regs := if r.slots.isEmpty then r.regs else s.regs
      pending := r.slots
      pc := some 0 }

/-- `step` and `retire` of R26 at position `k`: emit the pending event, or become idle at the end of the trace. -/
def advance (k : Nat) (s : State) : Host.Outcome State Fault Refusal :=
  match s.pending[k]? with
  | some slot => .next { s with regs := slot.regs, trace := s.trace ++ [slot.event], pc := some (k + 1) }
  | none =>
    if k = s.pending.length then .next { s with pc := none, pending := [] }
    else .fault .sequencePosition

end Sys2Proof.Machine
end

