-- ==== Sys2Proof/Machine/CommandLayer.lean ====
section
/-! DEFINITION. The Command Layer: clear, home, goto (spec/41_command_layer.md). -/

namespace Sys2Proof.Machine

/-- `clear()` (R100). -/
def clearProcedure (transport : Config.Transport) (r : Run) : Run := wait tClr (writeCommand transport cmdClear r)

/-- `home()` (R101). -/
def homeProcedure (transport : Config.Transport) (r : Run) : Run := wait tClr (writeCommand transport cmdHome r)

/-- `goto(col, row)` (R102), over integers (R62). -/
def gotoProcedure (transport : Config.Transport) (col row : Int) (r : Run) : Run :=
  writeCommand transport (gotoCmd col row) r

/-- CLEAR (R100). -/
def execClear (s : State) : Host.Outcome State Fault Refusal := perform (clearProcedure Config.params.transport) s

/-- HOME (R101). -/
def execHome (s : State) : Host.Outcome State Fault Refusal := perform (homeProcedure Config.params.transport) s

/-- GOTO (R102 to R104). -/
def execGoto (col row : Byte) (s : State) : Host.Outcome State Fault Refusal :=
  perform (gotoProcedure Config.params.transport (coord col) (coord row)) s

end Sys2Proof.Machine
end

