-- ==== Sys2Proof/Machine/Initialization.lean ====
section
/-! DEFINITION. The display initialization sequencer (spec/42_init_sequencer.md). -/

namespace Sys2Proof.Machine

/-- The state reset that opens `init` (R111). -/
def initStateReset (cfg : Config.Params) (r : Run) : Run :=
  writeRs false (writeBl cfg.cfgBl (writeAddr cfg.cfgAddr r))

/-- Step 1: pins idle and power-on wait (R112). -/
def initPinsIdle (transport : Config.Transport) (r : Run) : Run := wait tPor (sendIdleByte transport r)

/-- One pulse of steps 2 and 3: a single `write_nibble` with register-select false, then the wait (R113, R114, D7, D14, D15). -/
def initPulse (transport : Config.Transport) (nibble : Byte) (r : Run) : Run :=
  wait tStep (callNibble transport nibble false r)

/-- Steps 4 to 8: a command, then the wait (R115 to R119). -/
def initCommand (transport : Config.Transport) (cmd : Byte) (r : Run) : Run :=
  wait tStep (writeCommand transport cmd r)

/-- `init()` (R110), with the configuration as an argument. -/
def initProcedure (cfg : Config.Params) (r : Run) : Run :=
  let r := initStateReset cfg r
  let r := initPinsIdle cfg.transport r
  let r := initPulse cfg.transport wakeNibble r
  let r := initPulse cfg.transport wakeNibble r
  let r := initPulse cfg.transport wakeNibble r
  let r := initPulse cfg.transport fourBitNibble r
  let r := initCommand cfg.transport cfg.cmdFunctionSet r
  let r := initCommand cfg.transport cfg.cmdDisplayOn r
  let r := initCommand cfg.transport cmdClear r
  let r := initCommand cfg.transport cfg.cmdEntryInc r
  initCommand cfg.transport cfg.cmdDisplayOn r

/-- INIT (R110). -/
def execInit (s : State) : Host.Outcome State Fault Refusal := perform (initProcedure Config.params) s

end Sys2Proof.Machine
end

