-- ==== Sys2Proof/Machine/PublicApi.lean ====
section
/-! DEFINITION. The Public Driver API's other six operations (spec/43_public_api.md). -/

namespace Sys2Proof.Machine

/-- `set_address(addr)` (R130): no bus traffic. -/
def setAddressProcedure (addr : I2cAddr) (r : Run) : Run := writeAddr addr r

/-- `put_char(c)` (R131): every code is sent as it is. -/
def putCharProcedure (transport : Config.Transport) (c : Byte) (r : Run) : Run := writeData transport c r

/-- `print(text)` (R132, R133): each character in order, first to last. -/
def printProcedure (transport : Config.Transport) : List Byte → Run → Run
  | [], r => r
  | c :: text, r => printProcedure transport text (putCharProcedure transport c r)

/-- `print_at(col, row, text)` (R134): `goto`, then `print`. -/
def printAtProcedure (transport : Config.Transport) (col row : Int) (text : List Byte) (r : Run) : Run :=
  printProcedure transport text (gotoProcedure transport col row r)

/-- `backlight_on()` (R135): `BL` is written before the transmission. -/
def backlightOnProcedure (transport : Config.Transport) (r : Run) : Run := sendIdleByte transport (writeBl true r)

/-- `backlight_off()` (R136). -/
def backlightOffProcedure (transport : Config.Transport) (r : Run) : Run := sendIdleByte transport (writeBl false r)

/-- SET_ADDRESS (R130). -/
def execSetAddress (addr : I2cAddr) (s : State) : Host.Outcome State Fault Refusal :=
  perform (setAddressProcedure addr) s

/-- PUT_CHAR (R131). -/
def execPutChar (c : Byte) (s : State) : Host.Outcome State Fault Refusal :=
  perform (putCharProcedure Config.params.transport c) s

/-- PRINT (R132). -/
def execPrint (text : List Byte) (s : State) : Host.Outcome State Fault Refusal :=
  perform (printProcedure Config.params.transport text) s

/-- PRINT_AT (R134). -/
def execPrintAt (col row : Byte) (text : List Byte) (s : State) : Host.Outcome State Fault Refusal :=
  perform (printAtProcedure Config.params.transport (coord col) (coord row) text) s

/-- BACKLIGHT_ON (R135). -/
def execBacklightOn (s : State) : Host.Outcome State Fault Refusal :=
  perform (backlightOnProcedure Config.params.transport) s

/-- BACKLIGHT_OFF (R136). -/
def execBacklightOff (s : State) : Host.Outcome State Fault Refusal :=
  perform (backlightOffProcedure Config.params.transport) s

end Sys2Proof.Machine
end

