-- ==== Sys2Proof/Syntax.lean ====
section
/-! DEFINITION. The ten operations of the command port (spec/30_encoding.md R60, R61), one constructor per row of
spec/opcode_table.json. -/

namespace Sys2Proof

/-- The abstract operation type `Op` of R60. -/
inductive Instr where
  /-- `init()`, R110. -/
  | init
  /-- `set_address(addr)`, R130: the 7-bit form of the address (D17). -/
  | setAddress (addr : I2cAddr)
  /-- `clear()`, R100. -/
  | clear
  /-- `home()`, R101. -/
  | home
  /-- `goto(col, row)`, R102: the column before the row, both counted from 1. -/
  | goto (col row : Byte)
  /-- `put_char(c)`, R131. -/
  | putChar (c : Byte)
  /-- `print(text)`, R132. -/
  | print (text : List Byte)
  /-- `print_at(col, row, text)`, R134. -/
  | printAt (col row : Byte) (text : List Byte)
  /-- `backlight_on()`, R135. -/
  | backlightOn
  /-- `backlight_off()`, R136. -/
  | backlightOff
  deriving DecidableEq, Repr

end Sys2Proof
end

