-- ==== Sys2Proof/Machine/Dispatch.lean ====
section
/-! DEFINITION. One arm per operation of the command port. -/

namespace Sys2Proof.Machine

/-- The meaning of an operation (spec/00_scope.md R10). -/
def exec (i : Instr) (s : State) : Host.Outcome State Fault Refusal :=
  match i with
  | .init => Sys2Proof.Machine.execInit s
  | .setAddress addr => Sys2Proof.Machine.execSetAddress addr s
  | .clear => Sys2Proof.Machine.execClear s
  | .home => Sys2Proof.Machine.execHome s
  | .goto col row => Sys2Proof.Machine.execGoto col row s
  | .putChar c => Sys2Proof.Machine.execPutChar c s
  | .print text => Sys2Proof.Machine.execPrint text s
  | .printAt col row text => Sys2Proof.Machine.execPrintAt col row text s
  | .backlightOn => Sys2Proof.Machine.execBacklightOn s
  | .backlightOff => Sys2Proof.Machine.execBacklightOff s

end Sys2Proof.Machine
end

