-- ==== Sys2Proof/WellFormed.lean ====
section
/-! DEFINITION. Which operations the command port can carry (spec/30_encoding.md R60, R63, R69). -/

namespace Sys2Proof

/-- No byte of a text is 0x00: the byte form ends a text at the first 0x00 (R60, R63, R69 (b)). -/
def textWf (text : List Byte) : Bool := text.all fun c => c != 0

/-- A well-formed operation. Every other operand value is legal (R69 (d)); a 7-bit address cannot be out of range,
because the type of `Instr.setAddress` has no eighth bit. -/
def Instr.wf : Instr → Bool
  | .init => true
  | .setAddress _ => true
  | .clear => true
  | .home => true
  | .goto _ _ => true
  | .putChar _ => true
  | .print text => textWf text
  | .printAt _ _ text => textWf text
  | .backlightOn => true
  | .backlightOff => true

end Sys2Proof
end

