-- ==== Sys2Proof/Decode.lean ====
section
/-! DEFINITION. The command port's byte form (spec/30_encoding.md R60 to R63, R68, R69): the decoder, total on every list
of bytes, then the encoder, both written from the opcode map of R61; and the layout of one word of
spec/opcode_table.json as command bytes. -/

namespace Sys2Proof

/-- What a decoder makes of the bytes on the command port. -/
inductive Decoded where
  /-- A whole command, and the bytes after it. -/
  | instr (i : Instr) (rest : List Byte)
  /-- An opcode of 0x0A to 0xFF (R68). -/
  | reservedOpcode (opcode : Byte)
  /-- SET_ADDRESS with bit 7 of its operand set (R69 (a)). -/
  | reservedOperand (operand : Byte)
  /-- The bytes end before the format is complete: not a command yet (R69 (c)). -/
  | incomplete
  deriving DecidableEq, Repr

/-- Split a text from what follows its terminator, the first 0x00 (R63); `none` when there is no 0x00. -/
def takeText : List Byte → Option (List Byte × List Byte)
  | [] => none
  | b :: bs =>
    if b = 0#8 then some ([], bs)
    else match takeText bs with
      | some (text, rest) => some (b :: text, rest)
      | none => none

/-- The operand of SET_ADDRESS: bits 6:0, bit 7 reserved (R61, R69 (a)). -/
def decodeAddress : List Byte → Decoded
  | [] => .incomplete
  | b :: rest => if b.msb then .reservedOperand b else .instr (.setAddress (b.setWidth 7)) rest

/-- The operands of GOTO, format `F2` (R60). -/
def decodeGoto : List Byte → Decoded
  | col :: row :: rest => .instr (.goto col row) rest
  | _ => .incomplete

/-- The operand of PUT_CHAR, format `F1` (R60). -/
def decodePutChar : List Byte → Decoded
  | c :: rest => .instr (.putChar c) rest
  | [] => .incomplete

/-- The operand of PRINT, format `FS` (R60, R63). -/
def decodePrint (bs : List Byte) : Decoded :=
  match takeText bs with
  | some (text, rest) => .instr (.print text) rest
  | none => .incomplete

/-- The operands of PRINT_AT, format `F2S` (R60, R63). -/
def decodePrintAt : List Byte → Decoded
  | col :: row :: bs =>
    match takeText bs with
    | some (text, rest) => .instr (.printAt col row text) rest
    | none => .incomplete
  | _ => .incomplete

/-- The decoder: byte 0 selects the row of R61, whose format says which operands follow. -/
def decode : List Byte → Decoded
  | [] => .incomplete
  | op :: bs =>
    match op.toNat with
    | 0x00 => .instr .init bs
    | 0x01 => decodeAddress bs
    | 0x02 => .instr .clear bs
    | 0x03 => .instr .home bs
    | 0x04 => decodeGoto bs
    | 0x05 => decodePutChar bs
    | 0x06 => decodePrint bs
    | 0x07 => decodePrintAt bs
    | 0x08 => .instr .backlightOn bs
    | 0x09 => .instr .backlightOff bs
    | _ => .reservedOpcode op

/-- The five formats (R60). -/
inductive Format where
  | f0
  | f1
  | f2
  | fs
  | f2s
  deriving DecidableEq, Repr

/-- The bytes of a format without its text, the terminator included (R60). -/
def Format.fixedLength : Format → Nat
  | .f0 => 1
  | .f1 => 2
  | .f2 => 3
  | .fs => 2
  | .f2s => 4

/-- The format column of R61. -/
def Instr.format : Instr → Format
  | .init => .f0
  | .setAddress _ => .f1
  | .clear => .f0
  | .home => .f0
  | .goto _ _ => .f2
  | .putChar _ => .f1
  | .print _ => .fs
  | .printAt _ _ _ => .f2s
  | .backlightOn => .f0
  | .backlightOff => .f0

/-- The opcode column of R61. -/
def Instr.opcode : Instr → Byte
  | .init => 0x00
  | .setAddress _ => 0x01
  | .clear => 0x02
  | .home => 0x03
  | .goto _ _ => 0x04
  | .putChar _ => 0x05
  | .print _ => 0x06
  | .printAt _ _ _ => 0x07
  | .backlightOn => 0x08
  | .backlightOff => 0x09

/-- The text operand, empty for the formats without one. -/
def Instr.text : Instr → List Byte
  | .init => []
  | .setAddress _ => []
  | .clear => []
  | .home => []
  | .goto _ _ => []
  | .putChar _ => []
  | .print text => text
  | .printAt _ _ text => text
  | .backlightOn => []
  | .backlightOff => []

/-- The bytes after the opcode (R60, R61). -/
def Instr.operandBytes : Instr → List Byte
  | .init => []
  | .setAddress addr => [addr.setWidth 8]
  | .clear => []
  | .home => []
  | .goto col row => [col, row]
  | .putChar c => [c]
  | .print text => text ++ [0x00]
  | .printAt col row text => [col, row] ++ text ++ [0x00]
  | .backlightOn => []
  | .backlightOff => []

/-- The encoder: the command bytes of an operation (R60, R61). -/
def encode (i : Instr) : List Byte := i.opcode :: i.operandBytes

/-- The first `n` bytes of a number, least significant first: byte 0 of the command is bits 7:0 of a table word. -/
def wordBytes : Nat → Nat → List Byte
  | 0, _ => []
  | n + 1, w => BitVec.ofNat 8 w :: wordBytes n (w / 256)

/-- A table word of `nbits` bits followed by zero bytes, enough for the operands and terminator of every format (log
entry 5). -/
def paddedBytes (nbits w : Nat) : List Byte := wordBytes ((nbits + 7) / 8) w ++ [0x00, 0x00, 0x00]

/-- The instruction the decoder reads from a table word, the bits above `nbits` zero. -/
def decodeTableWord (nbits w : Nat) : Option Instr :=
  match decode (paddedBytes nbits w) with
  | .instr i _ => some i
  | .reservedOpcode _ => none
  | .reservedOperand _ => none
  | .incomplete => none

/-- The command bytes of a table word: as many as its instruction takes, or the word's own bytes where the decoder
refuses it. -/
def tableBytes (nbits w : Nat) : List Byte :=
  match decode (paddedBytes nbits w) with
  | .instr _ rest => (paddedBytes nbits w).take ((paddedBytes nbits w).length - rest.length)
  | .reservedOpcode _ => wordBytes ((nbits + 7) / 8) w
  | .reservedOperand _ => wordBytes ((nbits + 7) / 8) w
  | .incomplete => wordBytes ((nbits + 7) / 8) w

end Sys2Proof
end

