-- ==== Sys2Proof/Machine/Fetch.lean ====
section
/-! DEFINITION. Taking the next operation from the command port (spec/30_encoding.md R60, R68, R69; 00_scope.md R17). -/

namespace Sys2Proof.Machine

/-- What an idle controller does: take one whole command off the port and carry it out by `run`; refuse a reserved
encoding (R68, R69 (a)); wait, unchanged, while the port holds no whole command (R69 (c), R172; log entry 6). -/
def takeCommand (run : Instr → State → Host.Outcome State Fault Refusal) (s : State) :
    Host.Outcome State Fault Refusal :=
  match decode s.port with
  | .instr i rest => run i { s with port := rest }
  | .reservedOpcode opcode => .refused (.reservedOpcode opcode)
  | .reservedOperand operand => .refused (.reservedOperand operand)
  | .incomplete => .next s

/-- The state in which `bytes` are the next the controller takes: idle, with them at the head of the port. -/
def presentBytes (bytes : List Byte) (s : State) : State :=
  { s with pc := none, pending := [], port := bytes ++ s.port }

end Sys2Proof.Machine
end

