-- ==== Sys2Proof/Machine/Step.lean ====
section
/-! DEFINITION. One step of the machine: from idle, one whole operation of the command port (spec/00_scope.md R10); in the
middle of an operation, one event of its pending trace (10_state.md R26; log entry 7). -/

namespace Sys2Proof.Machine

/-- One step. -/
def step (s : State) : Host.Outcome State Fault Refusal :=
  match s.pc with
  | none => takeCommand exec s
  | some k => advance k s

/-- `s`, idle, with the command bytes of a table word next on the command port: the host presents that operation. -/
def State.withFetchWord (s : State) (nbits w : Nat) : State := presentBytes (tableBytes nbits w) s

end Sys2Proof.Machine
end

