-- ==== Sys2Proof/Machine/Observe.lean ====
section
/-! DEFINITION. What can be read off a trace (spec/00_scope.md R18): the transmitted bytes, the requested waits, the bytes
on the wire (30_encoding.md R73), the standing pins (10_state.md R28) and the latched nibbles
(40_transport_nibble_byte.md R87). -/

namespace Sys2Proof.Machine

/-- The transmitted bytes, waits left out. -/
def txBytes : List Event → List Byte
  | [] => []
  | .tx _ v :: es => v :: txBytes es
  | .wait _ :: es => txBytes es

/-- The target addresses of the transmissions. -/
def txAddrs : List Event → List I2cAddr
  | [] => []
  | .tx a _ :: es => a :: txAddrs es
  | .wait _ :: es => txAddrs es

/-- The requested waits, in microseconds. -/
def waits : List Event → List Nat
  | [] => []
  | .tx _ _ :: es => waits es
  | .wait t :: es => t :: waits es

/-- The total requested wait, in microseconds (R187). -/
def totalWait (es : List Event) : Nat := (waits es).sum

/-- Whether a byte has the enable bit set (R64). -/
def hasEnable (v : Byte) : Bool := v.getLsbD 2

/-- The address byte on the wire: `(a << 1) | 0`, the low bit 0 meaning write (R73). -/
def wireAddress (a : I2cAddr) : Byte := (a.setWidth 8) <<< 1

/-- The bytes of one transaction between its start and stop conditions (R73); a wait puts nothing on the wire. -/
def wireBytes : Event → List Byte
  | .tx a v => [wireAddress a, v]
  | .wait _ => []

/-- A trace with every I2C write replaced by what another bus primitive does with the same address and byte: the same
core on another bus (00_scope.md R6). -/
def retarget (transport : Config.Transport) : List Event → List Event
  | [] => []
  | .tx a v :: es => transport a v ++ retarget transport es
  | .wait t :: es => .wait t :: retarget transport es

/-- The standing pin state: the last byte transmitted, if any, to whichever address (R28; PRESUMED, general knowledge G8:
the expander holds it; addresses ignored, log entry 19). -/
def standingByte (es : List Event) : Option Byte := (txBytes es).getLast?

/-- A latched nibble: bits 7:4 of a byte and its register-select bit (R87). -/
def latchOf (v : Byte) : BitVec 4 × Bool := (v.extractLsb' 4 4, v.getLsbD 0)

/-- The nibbles latched by transmitted bytes where the enable line rises, after a byte whose enable bit was `prev` (R87). -/
def latchedFrom (prev : Bool) : List Byte → List (BitVec 4 × Bool)
  | [] => []
  | v :: vs =>
    if hasEnable v && !prev then latchOf v :: latchedFrom (hasEnable v) vs
    else latchedFrom (hasEnable v) vs

/-- The list of latched nibbles of a trace (R87): the enable line counts as clear before the first byte. R87 defines the
list only for a trace whose transmissions all go to one address. DESIGN CHOICE (log entry 19): for any other trace, such
as one around `set_address` or one with freely drawn addresses, the addresses are ignored and all transmissions make one
list. -/
def latched (es : List Event) : List (BitVec 4 × Bool) := latchedFrom false (txBytes es)

/-- The same where the enable line falls (R87; PRESUMED, general knowledge G9). -/
def latchedFallingFrom (prev : Bool) : List Byte → List (BitVec 4 × Bool)
  | [] => []
  | v :: vs =>
    if !hasEnable v && prev then latchOf v :: latchedFallingFrom (hasEnable v) vs
    else latchedFallingFrom (hasEnable v) vs

/-- The latched nibbles under the falling-edge reading (R87), addresses ignored alike (DESIGN CHOICE, log entry 19). -/
def latchedFalling (es : List Event) : List (BitVec 4 × Bool) := latchedFallingFrom false (txBytes es)

/-- The bytes a list of latched nibbles pairs up to, high nibble first (R87). -/
def pairNibbles : List (BitVec 4 × Bool) → List (Byte × Bool)
  | (hi, rs) :: (lo, _) :: ns => (hi ++ lo, rs) :: pairNibbles ns
  | _ => []

end Sys2Proof.Machine
end

