-- ==== Sys2Proof/Machine/SmallStep.lean ====
section
/-! DEFINITION. The small-step form of spec/10_state.md R26 over the same state: an operation is issued as a pending trace
and the sequence position moves over it one event a step. -/

namespace Sys2Proof.Machine

/-- The pseudocode of each operation under a configuration. -/
def procedureWith (cfg : Config.Params) : Instr → Run → Run
  | .init => initProcedure cfg
  | .setAddress addr => setAddressProcedure addr
  | .clear => clearProcedure cfg.transport
  | .home => homeProcedure cfg.transport
  | .goto col row => gotoProcedure cfg.transport (coord col) (coord row)
  | .putChar c => putCharProcedure cfg.transport c
  | .print text => printProcedure cfg.transport text
  | .printAt col row text => printAtProcedure cfg.transport (coord col) (coord row) text
  | .backlightOn => backlightOnProcedure cfg.transport
  | .backlightOff => backlightOffProcedure cfg.transport

/-- The pseudocode of each operation of this machine. -/
def procedure (i : Instr) : Run → Run := procedureWith Config.params i

/-- `issue(op)` (R26). -/
def issueInstr (i : Instr) (s : State) : Host.Outcome State Fault Refusal := issue (procedure i) s

/-- One small step: issue from idle, emit one event, or retire (R26). -/
def microStep (s : State) : Host.Outcome State Fault Refusal :=
  match s.pc with
  | none => takeCommand issueInstr s
  | some k => advance k s

/-- `n` small steps, stopping at the first fault or refusal. -/
def microRun : Nat → State → Host.Outcome State Fault Refusal
  | 0, s => .next s
  | n + 1, s =>
    match microStep s with
    | .next t => microRun n t
    | .fault f => .fault f
    | .refused r => .refused r

end Sys2Proof.Machine
end

