-- ==== Sys2Proof/Safety.lean ====
section
/-! DEFINITION. The terms claims are stated in: the traces of the spec written out event by event, the premises the spec
puts on the host, the final states, and the invariant of the machine. -/

namespace Sys2Proof.Safety

open Sys2Proof.Machine

/-! ## Traces, as the spec writes them -/

/-- The five events of `write_nibble` at address `a` (spec/40_transport_nibble_byte.md R82). -/
def nibbleTrace (a : I2cAddr) (n : Byte) (rs bl : Bool) : List Event :=
  let x : Byte := (n &&& 0xF0) ||| (if rs then 0x01 else 0x00) ||| (if bl then 0x08 else 0x00)
  [.tx a x, .tx a (x ||| 0x04), .wait 1, .tx a x, .wait 50]

/-- The ten events of `write_byte` (R83). -/
def byteTrace (a : I2cAddr) (v : Byte) (isData bl : Bool) : List Event :=
  nibbleTrace a (v &&& 0xF0) isData bl ++ nibbleTrace a ((v <<< 4) &&& 0xF0) isData bl

/-- The events of `print`: those of its characters, in order (R132). -/
def textTrace (a : I2cAddr) (bl : Bool) (text : List Byte) : List Event :=
  (text.map fun c => byteTrace a c true bl).flatten

/-- The full trace of `init` (42_init_sequencer.md R120). -/
def initTrace (cfg : Config.Params) : List Event :=
  let a := cfg.cfgAddr
  let bl := cfg.cfgBl
  [.tx a (if bl then 0x08 else 0x00), .wait 40000]
    ++ (nibbleTrace a 0x30 false bl ++ [.wait 5000])
    ++ (nibbleTrace a 0x30 false bl ++ [.wait 5000])
    ++ (nibbleTrace a 0x30 false bl ++ [.wait 5000])
    ++ (nibbleTrace a 0x20 false bl ++ [.wait 5000])
    ++ (byteTrace a cfg.cmdFunctionSet false bl ++ [.wait 5000])
    ++ (byteTrace a cfg.cmdDisplayOn false bl ++ [.wait 5000])
    ++ (byteTrace a 0x01 false bl ++ [.wait 5000])
    ++ (byteTrace a cfg.cmdEntryInc false bl ++ [.wait 5000])
    ++ (byteTrace a cfg.cmdDisplayOn false bl ++ [.wait 5000])

/-- The timing facts of a stretch of trace: transmissions, `Wait` events, total requested wait in microseconds. -/
structure Cost where
  transmissions : Nat
  waitEvents : Nat
  microseconds : Nat
  deriving DecidableEq, Repr

/-- The cost of a trace. -/
def traceCost (es : List Event) : Cost where
  transmissions := (txBytes es).length
  waitEvents := (waits es).length
  microseconds := totalWait es

/-- The table of 70_reset_and_hazards.md R187. -/
def operationCost : Instr → Cost
  | .init => ⟨43, 38, 85714⟩
  | .setAddress _ => ⟨0, 0, 0⟩
  | .clear => ⟨6, 5, 2102⟩
  | .home => ⟨6, 5, 2102⟩
  | .goto _ _ => ⟨6, 4, 102⟩
  | .putChar _ => ⟨6, 4, 102⟩
  | .print text => ⟨6 * text.length, 4 * text.length, 102 * text.length⟩
  | .printAt _ _ text => ⟨6 + 6 * text.length, 4 + 4 * text.length, 102 + 102 * text.length⟩
  | .backlightOn => ⟨1, 0, 0⟩
  | .backlightOff => ⟨1, 0, 0⟩

/-! ## Premises and final states -/

/-- The controller accepts an operation (00_scope.md R17). -/
abbrev idle (s : State) : Prop := s.pc = none

/-- `ADDR` and `BL` have been written, so every transmission reads registers and draws nothing (10_state.md R29). -/
abbrev busRegistersWritten (s : State) : Prop := s.regs.addrWritten = true ∧ s.regs.blWritten = true

/-- Coordinates inside the display (70_reset_and_hazards.md R183). -/
abbrev insideDisplay (cfg : Config.Params) (col row : Int) : Prop :=
  1 ≤ col ∧ col ≤ (cfg.columns.val : Int) ∧ 1 ≤ row ∧ row ≤ (cfg.rows.count : Int)

/-- The end of a run (10_state.md R31): idle, and no operation left to issue. -/
abbrev final (s : State) : Prop := idle s ∧ s.port = []

/-- One operation and then, if it answers a next state, another: the composition of 30_encoding.md R71. -/
def andThen (o : Host.Outcome State Fault Refusal) (next : State → Host.Outcome State Fault Refusal) :
    Host.Outcome State Fault Refusal :=
  match o with
  | .next t => next t
  | .fault f => .fault f
  | .refused r => .refused r

/-- Two register files that no transmission can tell apart: the same registers are written among `ADDR` and `BL`, those
hold the same values, and the same free values are drawn next. `RS` and the values of unwritten registers may differ. -/
structure SameForBus (d e : DisplayState) : Prop where
  addrWritten : d.addrWritten = e.addrWritten
  blWritten : d.blWritten = e.blWritten
  addr : d.addrWritten = true → d.addr = e.addr
  bl : d.blWritten = true → d.bl = e.bl
  draws : d.draws = e.draws

/-! ## The invariant -/

/-- Where a trace stands in the strobe protocol (R82, R64). -/
inductive Phase where
  /-- Between nibbles; `last` is the byte just transmitted, if no wait came after it. -/
  | ready (last : Option Byte)
  /-- `b` has just been sent with enable clear, then with enable set. -/
  | strobed (b : Byte)
  /-- The pulse width has been waited out. -/
  | held (b : Byte)
  /-- `b` has been sent with enable clear again. -/
  | released
  /-- The trace has left the protocol. -/
  | broken
  deriving DecidableEq, Repr

/-- One event of the strobe protocol: bit 1 is never set (R64); enable is set only on the byte just sent, held for at
least the pulse width, cleared on the same byte, and followed by at least the settle time (R82); a wait is positive (R11). -/
def Phase.next : Phase → Event → Phase
  | .ready last, .tx _ v =>
    if v.getLsbD 1 then .broken
    else if hasEnable v then (if last = some (v &&& 0xFB) then .strobed (v &&& 0xFB) else .broken)
    else .ready (some v)
  | .ready _, .wait t => if 0 < t then .ready none else .broken
  | .strobed b, .wait t => if 1 ≤ t then .held b else .broken
  | .held b, .tx _ v => if v = b then .released else .broken
  | .released, .wait t => if 50 ≤ t then .ready none else .broken
  | _, _ => .broken

/-- The phase after a trace. -/
def phaseAfter (p : Phase) (es : List Event) : Phase := es.foldl Phase.next p

/-- A trace that keeps the strobe protocol and ends between nibbles. -/
def keepsProtocol (es : List Event) : Bool :=
  match phaseAfter (.ready none) es with
  | .ready _ => true
  | _ => false

/-- The events of the operation in progress that are still to be emitted. -/
def remaining (s : State) : List Event :=
  match s.pc with
  | none => []
  | some k => (s.pending.drop k).map Slot.event

/-- The invariant: the sequence position lies in its pending trace, nothing is pending when idle (R26), and the trace,
with what is still pending, keeps the strobe protocol (R64, R82). -/
structure Invariant (s : State) : Prop where
  position : ∀ k, s.pc = some k → k ≤ s.pending.length
  settled : s.pc = none → s.pending = []
  protocol : keepsProtocol (s.trace ++ remaining s) = true

end Sys2Proof.Safety
end

