-- ==== Sys2Proof/Certificates/Slice0/Obligations.lean ====
section
/-! DEFINITION. The statements about the machine, from the numbered rules of spec/. None is proved here. -/

open Sys2Proof Sys2Proof.Machine Sys2Proof.Safety

/-! ## Power-on and unwritten registers (10_state.md) -/

/-- R29, R170: at power-on `ADDR`, `BL` and `RS` are unwritten, the controller is idle and the trace is empty. That the
command port and the pending trace are empty too is the model's choice (log entries 4 and 8). -/
def Obligations.PowerOnNothingWritten : Prop :=
  State.reset.regs.addrWritten = false ∧ State.reset.regs.blWritten = false ∧ State.reset.regs.rsWritten = false ∧
  State.reset.pc = none ∧ State.reset.trace = [] ∧ State.reset.pending = [] ∧ State.reset.port = []

/-- R29 with the weakening it allows, the model's choice (log entries 1 to 3): a read of an unwritten register draws a
fresh free value, `ADDR` at each transmission and `BL` at each nibble; the operation runs. -/
def Obligations.UnwrittenReadsDrawFreeValues : Prop :=
  (∀ s : State, idle s → s.regs.addrWritten = false →
    exec .backlightOn s = .next { s with
      regs := { s.regs with bl := true, blWritten := true, draws := s.regs.draws + 1 }
      trace := s.trace ++ [.tx (Config.freeAddr s.regs.draws) 0x08] }) ∧
  (∀ s : State, idle s → s.regs.addrWritten = true → s.regs.blWritten = false →
    exec .clear s = .next { s with
      regs := { s.regs with rs := false, rsWritten := true, draws := s.regs.draws + 2 }
      trace := s.trace ++ nibbleTrace s.regs.addr 0x00 false (Config.freeBl s.regs.draws)
        ++ nibbleTrace s.regs.addr 0x10 false (Config.freeBl (s.regs.draws + 1)) ++ [.wait 2000] })

/-- R22, R88, R29: what an operation emits does not depend on the value `RS` holds, nor on what the value field of an
unwritten register holds. -/
def Obligations.TraceIgnoresRsAndUnwrittenValues : Prop :=
  ∀ (i : Instr) (s s' t : State), idle s → idle s' → SameForBus s.regs s'.regs → exec i s = .next t →
    ∃ t' tr, exec i s' = .next t' ∧ t.trace = s.trace ++ tr ∧ t'.trace = s'.trace ++ tr ∧
      SameForBus t.regs t'.regs

/-- R30, over one operation: a register once written stays written, the controller is idle again, and after `init` all
three registers are written and `ADDR` and `BL` hold the configured values. -/
def Obligations.WrittenRegistersStayWritten : Prop :=
  ∀ (i : Instr) (s t : State), exec i s = .next t →
    idle t ∧
    (s.regs.addrWritten = true → t.regs.addrWritten = true) ∧
    (s.regs.blWritten = true → t.regs.blWritten = true) ∧
    (s.regs.rsWritten = true → t.regs.rsWritten = true) ∧
    (i = .init → t.regs.addrWritten = true ∧ t.regs.blWritten = true ∧ t.regs.rsWritten = true ∧
      t.regs.addr = Config.params.cfgAddr ∧ t.regs.bl = Config.params.cfgBl) ∧
    (i = .backlightOn → t.regs.blWritten = true ∧ t.regs.bl = true) ∧
    (i = .backlightOff → t.regs.blWritten = true ∧ t.regs.bl = false)

/-! ## Assembly of values (30_encoding.md) -/

/-- R65: the two nibbles of a byte. -/
def Obligations.NibblesOfByte : Prop :=
  (∀ v : Byte,
    hiNibble v = v &&& 0xF0 ∧ loNibble v = (v <<< 4) &&& 0xF0 ∧
    hiNibble v &&& 0x0F = 0 ∧ loNibble v &&& 0x0F = 0 ∧
    (hiNibble v).extractLsb' 4 4 = v.extractLsb' 4 4 ∧ (loNibble v).extractLsb' 4 4 = v.extractLsb' 0 4) ∧
  hiNibble 0x4F = 0x40 ∧ loNibble 0x4F = 0xF0 ∧ hiNibble 0x01 = 0x00 ∧ loNibble 0x01 = 0x10

/-- R66: the composition of an expander byte; the fields do not overlap. -/
def Obligations.ExpanderByteComposition : Prop :=
  (∀ (n : Byte) (rs bl e : Bool),
    dataByte n rs = (n &&& 0xF0) ||| (if rs then 0x01 else 0x00) ∧
    blBit bl = (if bl then 0x08 else 0x00) ∧
    xbyte n rs bl e = dataByte n rs ||| blBit bl ||| (if e then 0x04 else 0x00) ∧
    xbyte n rs bl e = (n &&& 0xF0) + (if rs then 0x01 else 0x00) + blBit bl + (if e then 0x04 else 0x00)) ∧
  xbyte 0x30 false true false = 0x38 ∧ xbyte 0x30 false true true = 0x3C ∧ xbyte 0xF0 true false true = 0xF5

/-- R64 over every operation and state: each transmitted byte is an expander byte, with bit 1 clear and its low nibble
one of the eight the layout allows. -/
def Obligations.TransmittedBytesHaveTheLayout : Prop :=
  ∀ (i : Instr) (s t : State), exec i s = .next t →
    ∃ tr, t.trace = s.trace ++ tr ∧ ∀ v ∈ txBytes tr,
      v.getLsbD 1 = false ∧
      v &&& 0x0F ∈ ([0x0, 0x1, 0x4, 0x5, 0x8, 0x9, 0xC, 0xD] : List Byte) ∧
      ∃ n rs bl e, v = xbyte n rs bl e ∧ v.extractLsb' 4 4 = n.extractLsb' 4 4 ∧
        v.getLsbD 3 = bl ∧ v.getLsbD 2 = e ∧ v.getLsbD 0 = rs

/-- R67: the cursor command byte over integers, its reduction modulo 256 (the spec's own decision D10), and where that
does nothing. -/
def Obligations.CursorCommandByte : Prop :=
  (∀ col row : Int,
    ((gotoCmd col row).toNat : Int) =
      ((if row = 1 then 0x80 else if row = 2 then 0xC0 else if row = 3 then 0x94 else 0xD4) + max col 1 - 1) % 256) ∧
  (∀ col row : Int, 1 ≤ row → row ≤ 4 → col ≤ 44 →
    ((gotoCmd col row).toNat : Int) =
      (if row = 1 then 0x80 else if row = 2 then 0xC0 else if row = 3 then 0x94 else 0xD4) + max col 1 - 1)

/-- R103: the corners of the cursor arithmetic: the clamp, no upper clamp, the overlapping ranges, the wrap (the spec's
own decision D10). -/
def Obligations.CursorCorners : Prop :=
  (∀ (col row : Byte) (s : State),
    exec (.goto col row) s = perform (writeCommand Config.i2cWrite (gotoCmd (coord col) (coord row))) s) ∧
  (∀ col row : Int, col < 1 → gotoCmd col row = gotoCmd 1 row) ∧
  (∀ (row : Byte) (s : State), exec (.goto 0 row) s = exec (.goto 1 row) s) ∧
  gotoCmd 17 1 = 0x90 ∧ gotoCmd 1 3 = 0x94 ∧
  (∀ c : Int, 1 ≤ c → c ≤ 20 → gotoCmd (c + 20) 1 = gotoCmd c 3 ∧ gotoCmd (c + 20) 2 = gotoCmd c 4) ∧
  (gotoCmd 128 1 = 0xFF ∧ gotoCmd 64 2 = 0xFF ∧ gotoCmd 108 3 = 0xFF ∧ gotoCmd 44 4 = 0xFF) ∧
  (gotoCmd 129 1 = 0x00 ∧ gotoCmd 65 2 = 0x00 ∧ gotoCmd 109 3 = 0x00 ∧ gotoCmd 45 4 = 0x00) ∧
  (∀ row : Int, row ∉ ([1, 2, 3] : List Int) → gotoCmd 45 row = 0x00) ∧
  (gotoCmd 130 1 = 0x01 ∧ gotoCmd 131 1 = 0x02) ∧ gotoCmd 255 1 = 0x7E ∧ gotoCmd 255 4 = 0xD2

/-- R104: every row but 1, 2 and 3 selects the base 0xD4, like row 4. -/
def Obligations.RowFallback : Prop :=
  (∀ row : Int, row ∉ ([1, 2, 3] : List Int) → rowBase row = 0xD4) ∧
  (∀ col row : Int, row ∉ ([1, 2, 3] : List Int) → gotoCmd col row = gotoCmd col 4) ∧
  (∀ (col row : Byte) (s : State), row ∉ ([1, 2, 3] : List Byte) →
    exec (.goto col row) s = exec (.goto col 4) s) ∧
  gotoCmd 5 0 = 0xD8 ∧ gotoCmd 3 5 = 0xD6 ∧ gotoCmd 3 255 = 0xD6 ∧ gotoCmd 1 0 ≠ gotoCmd 1 1

/-- R183: inside a display of at most 44 columns no cursor command wraps, and each has bit 7 set. -/
def Obligations.InsideDisplayNeverWraps : Prop :=
  ∀ (cfg : Config.Params) (col row : Int), cfg.columns.val ≤ 44 → insideDisplay cfg col row →
    ((gotoCmd col row).toNat : Int) = rowBase row + col - 1 ∧ (gotoCmd col row).getLsbD 7 = true

/-- R73: the bytes of a transaction on the wire. -/
def Obligations.WireBytes : Prop :=
  (∀ (a : I2cAddr) (v : Byte),
    wireBytes (.tx a v) = [wireAddress a, v] ∧ (wireAddress a).toNat = 2 * a.toNat ∧
    (wireAddress a).getLsbD 0 = false) ∧
  wireAddress 0x27 = 0x4E

/-! ## The command port (30_encoding.md) -/

/-- R60 to R63 (the byte form is the spec's own decision D1): decoding the bytes of a well-formed operation gives it back, whatever follows them. -/
def Obligations.DecodeOfEncode : Prop :=
  ∀ (i : Instr) (rest : List Byte), i.wf = true → decode (encode i ++ rest) = .instr i rest

/-- R60 to R63, R69 (b) (the byte form is the spec's own decision D1): what decodes to an operation is that operation's encoding, and the operation is well-formed. -/
def Obligations.DecodedBytesAreTheEncoding : Prop :=
  ∀ (bs rest : List Byte) (i : Instr), decode bs = .instr i rest → bs = encode i ++ rest ∧ i.wf = true

/-- R69 (c): a command that ends before its format is complete is not a command. That the machine then waits, rather than
refuses, is the model's choice among the two the rule gives (log entry 6). -/
def Obligations.IncompleteCommandsWait : Prop :=
  ∀ (i : Instr) (bs : List Byte), i.wf = true → bs <+: encode i → bs ≠ encode i →
    decode bs = .incomplete ∧ ∀ s : State, idle s → s.port = bs → step s = .next s

/-- R68: opcodes 0x0A to 0xFF are refused (the spec's own decision D2), and only those. -/
def Obligations.ReservedOpcodesRefused : Prop :=
  (∀ (s : State) (op : Byte) (bs : List Byte), idle s → s.port = op :: bs → 0x0A ≤ op.toNat →
    step s = .refused (.reservedOpcode op)) ∧
  (∀ (s : State) (op op' : Byte) (bs : List Byte), idle s → s.port = op :: bs → op.toNat < 0x0A →
    step s ≠ .refused (.reservedOpcode op'))

/-- R69: the reserved operand is refused (the spec's own decision D2); no text holds 0x00, and PUT_CHAR can send it; a command cut short is not a
command; every column, row and character is legal. -/
def Obligations.OperandEncodings : Prop :=
  (∀ (s : State) (b : Byte) (bs : List Byte), idle s → s.port = 0x01 :: b :: bs → b.getLsbD 7 = true →
    step s = .refused (.reservedOperand b)) ∧
  (∀ (bs rest text : List Byte), decode bs = .instr (.print text) rest → 0x00 ∉ text) ∧
  (∀ (bs rest text : List Byte) (col row : Byte), decode bs = .instr (.printAt col row text) rest → 0x00 ∉ text) ∧
  (∀ rest, decode (0x05 :: 0x00 :: rest) = .instr (.putChar 0x00) rest) ∧
  (∀ (i : Instr) (bs : List Byte), i.wf = true → bs <+: encode i → bs ≠ encode i → decode bs = .incomplete) ∧
  (∀ (col row c : Byte) (rest : List Byte),
    decode (0x04 :: col :: row :: rest) = .instr (.goto col row) rest ∧
    decode (0x05 :: c :: rest) = .instr (.putChar c) rest)

/-- 95_test_vectors.md V9: words of every format written out from the spec. -/
def Obligations.SpecWordsDecode : Prop :=
  decode [0x00] = .instr .init [] ∧
  decode [0x01, 0x27] = .instr (.setAddress 0x27) [] ∧
  decode [0x01, 0x80] = .reservedOperand 0x80 ∧
  decode [0x04, 0x01, 0x02] = .instr (.goto 1 2) [] ∧
  decode [0x05, 0x41] = .instr (.putChar 0x41) [] ∧
  decode [0x06, 0x4F, 0x4B, 0x00] = .instr (.print [0x4F, 0x4B]) [] ∧
  decode [0x07, 0x10, 0x02, 0x00] = .instr (.printAt 16 2 []) [] ∧
  decode [0x09] = .instr .backlightOff [] ∧
  decode [0x0A] = .reservedOpcode 0x0A ∧
  decode [0x06, 0x4F, 0x4B] = .incomplete

/-! ## The step -/

/-- R10, R17, R60: an idle controller with a whole command on its port takes it off and carries it out. -/
def Obligations.StepRunsTheDecodedOperation : Prop :=
  ∀ (s : State) (i : Instr) (rest : List Byte), idle s → decode s.port = .instr i rest →
    step s = exec i { s with port := rest }

/-- The table word that the decoder reads as an operation, once presented, is the operation the very next step carries
out, and the bytes already on the port stay behind it (the model's own, log entry 5). -/
def Obligations.PresentedWordRunsNext : Prop :=
  ∀ (s : State) (nbits w : Nat) (i : Instr), decodeTableWord nbits w = some i →
    step (s.withFetchWord nbits w) = exec i { s with pc := none, pending := [] }

/-- R31, R172: an idle controller with nothing on its port stays as it is. -/
def Obligations.IdleControllerWaits : Prop :=
  ∀ s : State, final s → step s = .next s

/-- R17, R26, R178: a busy controller accepts no operation and takes nothing off the port. The refusal is the model's
treatment (log entry 9). -/
def Obligations.BusyControllerAcceptsNothing : Prop :=
  (∀ (i : Instr) (s : State) (k : Nat), s.pc = some k → exec i s = .refused .busy ∧ issueInstr i s = .refused .busy) ∧
  (∀ (s t : State) (k : Nat), s.pc = some k → step s = .next t → t.port = s.port)

/-- R51, R47: what has been emitted stays emitted, in order; a step only appends. -/
def Obligations.TraceOnlyGrows : Prop :=
  ∀ s t : State, step s = .next t → s.trace <+: t.trace

/-- R68, R69: in a state that meets the invariant no step faults, and the only refusals are those of the command port.
The invariant allows `ADDR` or `BL` to be unwritten. A read of them there is the one fault R150 gives a model, and R29
and D5 allow a free draw in its place: that no step faults there is the model's choice of the draw (log entry 2). -/
def Obligations.OnlyReservedEncodingsStop : Prop :=
  ∀ s : State, Invariant s →
    (∀ f, step s ≠ .fault f) ∧
    (∀ r, step s = .refused r → (∃ op, r = .reservedOpcode op) ∨ ∃ b, r = .reservedOperand b)

/-! ## Micro-operations (40_transport_nibble_byte.md) -/

/-- R80: one transmission to the address `ADDR` holds at the call, all eight bits as they are, no register written. -/
def Obligations.SendExpanderByte : Prop :=
  (∀ (v : Byte) (r : Run), r.regs.addrWritten = true →
    (sendExpanderByte Config.i2cWrite v r).events = r.events ++ [.tx r.regs.addr v] ∧
    (sendExpanderByte Config.i2cWrite v r).regs = r.regs) ∧
  wireBytes (.tx 0x27 0x3C) = [0x4E, 0x3C]

/-- R82: the five events of a nibble; the low bits of the operand are discarded; no register is written. -/
def Obligations.NibbleEvents : Prop :=
  (∀ (n : Byte) (rs bl : Bool) (r : Run), r.regs.addrWritten = true →
    (writeNibble Config.i2cWrite n rs bl r).events = r.events ++
      (let x : Byte := (n &&& 0xF0) ||| (if rs then 0x01 else 0x00) ||| (if bl then 0x08 else 0x00)
       [.tx r.regs.addr x, .tx r.regs.addr (x ||| 0x04), .wait 1, .tx r.regs.addr x, .wait 50]) ∧
    (writeNibble Config.i2cWrite n rs bl r).regs = r.regs) ∧
  (∀ (transport : Config.Transport) (n : Byte) (rs bl : Bool) (r : Run),
    writeNibble transport n rs bl r = writeNibble transport (n &&& 0xF0) rs bl r) ∧
  txBytes (nibbleTrace 0x27 0x30 false true) = [0x38, 0x3C, 0x38] ∧
  txBytes (nibbleTrace 0x27 0xF0 true false) = [0xF1, 0xF5, 0xF1] ∧
  txBytes (nibbleTrace 0x27 0x00 false false) = [0x00, 0x04, 0x00]

/-- R83: a byte is its high nibble, then its low nibble, with register-select set to `is_data` first. -/
def Obligations.ByteEvents : Prop :=
  (∀ (v : Byte) (isData : Bool) (r : Run), r.regs.addrWritten = true → r.regs.blWritten = true →
    (writeByte Config.i2cWrite v isData r).events = r.events ++
      (nibbleTrace r.regs.addr (v &&& 0xF0) isData r.regs.bl ++
      nibbleTrace r.regs.addr ((v <<< 4) &&& 0xF0) isData r.regs.bl) ∧
    (writeByte Config.i2cWrite v isData r).regs = { r.regs with rs := isData, rsWritten := true }) ∧
  (∀ (a : I2cAddr) (v : Byte) (isData bl : Bool),
    (byteTrace a v isData bl).length = 10 ∧ traceCost (byteTrace a v isData bl) = ⟨6, 4, 102⟩) ∧
  txBytes (byteTrace 0x27 0x4F true true) = [0x49, 0x4D, 0x49, 0xF9, 0xFD, 0xF9] ∧
  txBytes (byteTrace 0x27 0x28 false true) = [0x28, 0x2C, 0x28, 0x88, 0x8C, 0x88]

/-- R86: the source's testable properties of `write_byte`. -/
def Obligations.ByteStreamProperties : Prop :=
  ∀ (v : Byte) (rs : Bool) (d : DisplayState), d.addrWritten = true → d.blWritten = true →
    ∃ t1 t2 t3 t4 t5 t6, txBytes (writeByte Config.i2cWrite v rs (Run.start d)).events = [t1, t2, t3, t4, t5, t6] ∧
      (let low : Byte := (if rs then 0x01 else 0x00) ||| blBit d.bl
       t1 &&& 0x0F = low ∧ t3 &&& 0x0F = low ∧ t4 &&& 0x0F = low ∧ t6 &&& 0x0F = low ∧
       t2 &&& 0x0F = low ||| 0x04 ∧ t5 &&& 0x0F = low ||| 0x04) ∧
      (t1 &&& 0xF0 = v &&& 0xF0 ∧ t2 &&& 0xF0 = v &&& 0xF0 ∧ t3 &&& 0xF0 = v &&& 0xF0) ∧
      (t4 &&& 0xF0 = (v <<< 4) &&& 0xF0 ∧ t5 &&& 0xF0 = (v <<< 4) &&& 0xF0 ∧ t6 &&& 0xF0 = (v <<< 4) &&& 0xF0) ∧
      v = (t2 &&& 0xF0) ||| ((t5 &&& 0xF0) >>> 4)

/-- R87: what each piece of a trace makes the display latch, from every register file: a nibble one pair, an idle byte
none; the nibbles of a text pair up to its characters, those of `init` to its five commands after four single nibbles.
Two of the model's choices are in it. With `ADDR` or `BL` unwritten R29 and D5 give a model fault by default and allow a
free draw in its place: the model draws (log entry 2), so the pieces emit there too. R87 defines the list only where all
transmissions go to one address: the model's list ignores the addresses (log entry 19), which freely drawn ones may need. -/
def Obligations.LatchedNibbles : Prop :=
  (∀ (n : Byte) (rs bl : Bool) (d : DisplayState),
    latched (writeNibble Config.i2cWrite n rs bl (Run.start d)).events = [(n.extractLsb' 4 4, rs)]) ∧
  (∀ d : DisplayState, latched (sendIdleByte Config.i2cWrite (Run.start d)).events = []) ∧
  (∀ (text : List Byte) (d : DisplayState),
    pairNibbles (latched (printProcedure Config.i2cWrite text (Run.start d)).events) = text.map fun c => (c, true)) ∧
  (∀ (cfg : Config.Params) (d : DisplayState),
    let nibbles := latched (initProcedure { cfg with transport := Config.i2cWrite } (Run.start d)).events
    nibbles.take 4 = [(3, false), (3, false), (3, false), (2, false)] ∧
    pairNibbles (nibbles.drop 4) =
      [(cfg.cmdFunctionSet, false), (cfg.cmdDisplayOn, false), (0x01, false), (cfg.cmdEntryInc, false),
       (cfg.cmdDisplayOn, false)])

/-- R87: over the byte stream of every operation, latching at the rising and at the falling edge of enable gives the same
nibbles. Where an unwritten `ADDR` is drawn freely (log entry 2) the transmissions need not go to one address, and the
model's two lists ignore the addresses (log entry 19). -/
def Obligations.EitherEdgeLatchesTheSame : Prop :=
  ∀ (i : Instr) (s t : State), exec i s = .next t →
    ∃ tr, t.trace = s.trace ++ tr ∧ latched tr = latchedFalling tr

/-- R28: the last byte of every operation that transmits has enable clear. -/
def Obligations.LastByteHasEnableClear : Prop :=
  ∀ (i : Instr) (s t : State), exec i s = .next t →
    ∃ tr, t.trace = s.trace ++ tr ∧ ∀ v, standingByte tr = some v → hasEnable v = false

/-- R6, R80, R163: the bus primitive is a replaceable parameter, and the machine's is the I2C write of R80. On any other
one the same core does the same: every operation's pseudocode, from every register file, writes the same registers and
emits its I2C trace with each I2C write replaced by what that primitive does with the same address and byte. -/
def Obligations.RetargetedTransport : Prop :=
  Config.params.transport = Config.i2cWrite ∧
  (∀ (cfg : Config.Params) (transport : Config.Transport) (i : Instr) (d : DisplayState),
    let onI2c := procedureWith { cfg with transport := Config.i2cWrite } i (Run.start d)
    let onOther := procedureWith { cfg with transport := transport } i (Run.start d)
    onOther.regs = onI2c.regs ∧ onOther.events = retarget transport onI2c.events) ∧
  (∀ es : List Event, retarget Config.i2cWrite es = es)

/-! ## The operations' results -/

/-- R100: `clear()`. -/
def Obligations.ClearResult : Prop :=
  encode .clear = [0x02] ∧
  (∀ s : State, idle s → busRegistersWritten s →
    exec .clear s = .next { s with
      regs := { s.regs with rs := false, rsWritten := true }
      trace := s.trace ++ (byteTrace s.regs.addr 0x01 false s.regs.bl ++ [.wait 2000]) }) ∧
  txBytes (byteTrace 0x27 0x01 false true) = [0x08, 0x0C, 0x08, 0x18, 0x1C, 0x18] ∧
  txBytes (byteTrace 0x27 0x01 false false) = [0x00, 0x04, 0x00, 0x10, 0x14, 0x10]

/-- R101: `home()`. -/
def Obligations.HomeResult : Prop :=
  encode .home = [0x03] ∧
  (∀ s : State, idle s → busRegistersWritten s →
    exec .home s = .next { s with
      regs := { s.regs with rs := false, rsWritten := true }
      trace := s.trace ++ (byteTrace s.regs.addr 0x02 false s.regs.bl ++ [.wait 2000]) }) ∧
  txBytes (byteTrace 0x27 0x02 false true) = [0x08, 0x0C, 0x08, 0x28, 0x2C, 0x28]

/-- R102: `goto(col, row)`, with its command byte written out for 8-bit operands (the spec's own decisions D6 for the
width of the operands and D10 for the sum modulo 256). -/
def Obligations.GotoResult : Prop :=
  (∀ col row : Byte, encode (.goto col row) = [0x04, col, row]) ∧
  (∀ (s : State) (col row : Byte), idle s → busRegistersWritten s →
    exec (.goto col row) s = .next { s with
      regs := { s.regs with rs := false, rsWritten := true }
      trace := s.trace ++ byteTrace s.regs.addr
        ((if row = 1 then 0x80 else if row = 2 then 0xC0 else if row = 3 then 0x94 else 0xD4)
          + (if col = 0 then 1 else col) - 1) false s.regs.bl }) ∧
  gotoCmd 1 2 = 0xC0 ∧ gotoCmd 16 1 = 0x8F ∧ gotoCmd 20 3 = 0xA7

/-- R131: `put_char(c)`. -/
def Obligations.PutCharResult : Prop :=
  (∀ c : Byte, encode (.putChar c) = [0x05, c]) ∧
  (∀ (s : State) (c : Byte), idle s → busRegistersWritten s →
    exec (.putChar c) s = .next { s with
      regs := { s.regs with rs := true, rsWritten := true }
      trace := s.trace ++ byteTrace s.regs.addr c true s.regs.bl }) ∧
  (∀ (a : I2cAddr) (c : Byte) (bl : Bool), ∀ v ∈ txBytes (byteTrace a c true bl), v.getLsbD 0 = true) ∧
  txBytes (byteTrace 0x27 0x41 true true) = [0x49, 0x4D, 0x49, 0x19, 0x1D, 0x19]

/-- R132: `print(text)`: the characters' traces in order, nothing else; the empty text changes no register. -/
def Obligations.PrintResult : Prop :=
  (∀ text : List Byte, encode (.print text) = 0x06 :: (text ++ [0x00])) ∧
  (∀ (s : State) (text : List Byte), idle s → busRegistersWritten s →
    exec (.print text) s = .next { s with
      regs := if text = [] then s.regs else { s.regs with rs := true, rsWritten := true }
      trace := s.trace ++ textTrace s.regs.addr s.regs.bl text }) ∧
  (∀ s : State, idle s → exec (.print []) s = .next s) ∧
  (∀ (a : I2cAddr) (bl : Bool) (text : List Byte),
    (textTrace a bl text).length = 10 * text.length ∧
    (txBytes (textTrace a bl text)).length = 6 * text.length ∧
    totalWait (textTrace a bl text) = 102 * text.length) ∧
  txBytes (textTrace 0x27 true [0x4F, 0x4B]) =
    [0x49, 0x4D, 0x49, 0xF9, 0xFD, 0xF9, 0x49, 0x4D, 0x49, 0xB9, 0xBD, 0xB9]

/-- R134: `print_at(col, row, text)`: the `goto` command (D6, D10 as for GOTO), then the characters. -/
def Obligations.PrintAtResult : Prop :=
  (∀ (col row : Byte) (text : List Byte),
    encode (.printAt col row text) = 0x07 :: col :: row :: (text ++ [0x00])) ∧
  ∀ (s : State) (col row : Byte) (text : List Byte), idle s → busRegistersWritten s →
    exec (.printAt col row text) s = .next { s with
      regs := { s.regs with rs := !text.isEmpty, rsWritten := true }
      trace := s.trace ++ (byteTrace s.regs.addr
        ((if row = 1 then 0x80 else if row = 2 then 0xC0 else if row = 3 then 0x94 else 0xD4)
          + (if col = 0 then 1 else col) - 1) false s.regs.bl ++ textTrace s.regs.addr s.regs.bl text) }

/-- R135: `backlight_on()`. -/
def Obligations.BacklightOnResult : Prop :=
  encode .backlightOn = [0x08] ∧
  ∀ s : State, idle s → s.regs.addrWritten = true →
    exec .backlightOn s = .next { s with
      regs := { s.regs with bl := true, blWritten := true }
      trace := s.trace ++ [.tx s.regs.addr 0x08] }

/-- R136: `backlight_off()`. -/
def Obligations.BacklightOffResult : Prop :=
  encode .backlightOff = [0x09] ∧
  ∀ s : State, idle s → s.regs.addrWritten = true →
    exec .backlightOff s = .next { s with
      regs := { s.regs with bl := false, blWritten := true }
      trace := s.trace ++ [.tx s.regs.addr 0x00] }

/-- R130: `set_address(addr)`: `ADDR` and nothing else, no event; every 7-bit value is stored. -/
def Obligations.SetAddressResult : Prop :=
  (∀ addr : I2cAddr, encode (.setAddress addr) = [0x01, 0#1 ++ addr]) ∧
  ∀ (s : State) (addr : I2cAddr), idle s →
    exec (.setAddress addr) s = .next { s with regs := { s.regs with addr := addr, addrWritten := true } }

/-- R110, R111, R122, R171: `init()` from every idle state, power-on included: the same registers and the same trace
every time, all of it to the configured address with the configured backlight bit (with the spec's own decisions D9 and
D12 to D16 on what the source leaves open of the steps). -/
def Obligations.InitResult : Prop :=
  encode .init = [0x00] ∧
  (∀ s : State, idle s →
    exec .init s = .next { s with
      regs := {
        addr := Config.params.cfgAddr
        bl := Config.params.cfgBl
        rs := false
        addrWritten := true
        blWritten := true
        rsWritten := true
        draws := s.regs.draws }
      trace := s.trace ++ initTrace Config.params }) ∧
  (∀ cfg : Config.Params,
    (∀ a ∈ txAddrs (initTrace cfg), a = cfg.cfgAddr) ∧
    (∀ v ∈ txBytes (initTrace cfg), v &&& 0x08 = blBit cfg.cfgBl) ∧
    standingByte (initTrace cfg) = some (xbyte (loNibble cfg.cmdDisplayOn) false cfg.cfgBl false))

/-- R120 (with the decisions D9 and D12 to D16): the full trace of `init` for every configuration with the transport of
R6, its counts, and its bytes with the suggested values. -/
def Obligations.InitTrace : Prop :=
  (∀ (cfg : Config.Params) (d : DisplayState),
    (initProcedure { cfg with transport := Config.i2cWrite } (Run.start d)).events = initTrace cfg) ∧
  (∀ cfg : Config.Params,
    (initTrace cfg).length = 81 ∧ traceCost (initTrace cfg) = ⟨43, 38, 85714⟩ ∧
    (latched (initTrace cfg)).length = 14) ∧
  (∀ e ∈ txAddrs (initTrace Config.suggested), e = 0x27) ∧
  txBytes (initTrace Config.suggested) =
    [0x08, 0x38, 0x3C, 0x38, 0x38, 0x3C, 0x38, 0x38, 0x3C, 0x38, 0x28, 0x2C, 0x28] ++
    [0x28, 0x2C, 0x28, 0x88, 0x8C, 0x88, 0x08, 0x0C, 0x08, 0xC8, 0xCC, 0xC8] ++
    [0x08, 0x0C, 0x08, 0x18, 0x1C, 0x18, 0x08, 0x0C, 0x08, 0x68, 0x6C, 0x68] ++
    [0x08, 0x0C, 0x08, 0xC8, 0xCC, 0xC8] ∧
  (∀ cfg : Config.Params, txBytes (initTrace { cfg with cfgBl := true }) =
    (txBytes (initTrace { cfg with cfgBl := false })).map (· + 0x08))

/-! ## All operations together -/

/-- R150, R187: from every idle state, written registers or not, every operation completes, is idle again, takes nothing
more off the port, and has the counts of the timing table; so have the micro-operations. Where `ADDR` or `BL` is
unwritten and read, R29, D5 and V11 give a model fault by default and allow a free draw in its place: that the operation
completes there is the model's choice of the draw (log entry 2). -/
def Obligations.EveryOperationCompletes : Prop :=
  (∀ (i : Instr) (s : State), idle s →
    ∃ t tr, exec i s = .next t ∧ t.trace = s.trace ++ tr ∧ traceCost tr = operationCost i ∧
      idle t ∧ t.pending = s.pending ∧ t.port = s.port) ∧
  (∀ (v n : Byte) (rs bl : Bool) (d : DisplayState),
    traceCost (sendExpanderByte Config.i2cWrite v (Run.start d)).events = ⟨1, 0, 0⟩ ∧
    traceCost (writeNibble Config.i2cWrite n rs bl (Run.start d)).events = ⟨3, 2, 51⟩ ∧
    traceCost (writeByte Config.i2cWrite v rs (Run.start d)).events = ⟨6, 4, 102⟩ ∧
    traceCost (writeCommand Config.i2cWrite v (Run.start d)).events = ⟨6, 4, 102⟩ ∧
    traceCost (writeData Config.i2cWrite v (Run.start d)).events = ⟨6, 4, 102⟩)

/-- R23: the frame of every operation. `ADDR` is written by `init` and `set_address` alone, `BL` by `init` and the two
backlight operations alone, `RS` by no `set_address`, backlight operation or empty `print`; the sequence position, the
pending trace and the port stay; the trace is only appended to; the draw counter moves only where a register is
unwritten. -/
def Obligations.FrameOfOperations : Prop :=
  ∀ (i : Instr) (s t : State), exec i s = .next t →
    (i ≠ .init → (∀ a, i ≠ .setAddress a) →
      t.regs.addr = s.regs.addr ∧ t.regs.addrWritten = s.regs.addrWritten) ∧
    (i ≠ .init → i ≠ .backlightOn → i ≠ .backlightOff →
      t.regs.bl = s.regs.bl ∧ t.regs.blWritten = s.regs.blWritten) ∧
    ((∃ a, i = .setAddress a) ∨ i = .backlightOn ∨ i = .backlightOff ∨ i = .print [] →
      t.regs.rs = s.regs.rs ∧ t.regs.rsWritten = s.regs.rsWritten) ∧
    (busRegistersWritten s → t.regs.draws = s.regs.draws) ∧
    ((∃ a, i = .setAddress a) ∨ i = .print [] → t.trace = s.trace) ∧
    s.trace <+: t.trace ∧ t.pc = s.pc ∧ t.pending = s.pending ∧ t.port = s.port

/-- R20, R81, R137: every transmission of an operation goes to the address `ADDR` holds at that moment and carries the
backlight bit `BL` holds at that moment, which is what the last of `init`, `backlight_on` and `backlight_off` gave it. -/
def Obligations.TransmissionsCarryRegisters : Prop :=
  ∀ (i : Instr) (s t : State), exec i s = .next t →
    t.trace = s.trace ++ (procedure i (Run.start s.regs)).slots.map Slot.event ∧
    ∀ slot ∈ (procedure i (Run.start s.regs)).slots,
      (∀ a v, slot.event = .tx a v →
        (slot.regs.addrWritten = true → a = slot.regs.addr) ∧
        (slot.regs.blWritten = true → v &&& 0x08 = blBit slot.regs.bl)) ∧
      slot.regs.bl = (if i = .init then Config.params.cfgBl else if i = .backlightOn then true
        else if i = .backlightOff then false else s.regs.bl) ∧
      (slot.regs.blWritten = true ↔ i = .init ∨ i = .backlightOn ∨ i = .backlightOff ∨ s.regs.blWritten = true)

/-- R71: the operations that are expansions of others, each carried out as its expansion. -/
def Obligations.ExpansionsAgree : Prop :=
  (∀ (transport : Config.Transport) (v : Byte) (r : Run),
    writeCommand transport v r = writeByte transport v false r ∧
    writeData transport v r = writeByte transport v true r) ∧
  (∀ (c : Byte) (s : State), exec (.putChar c) s = perform (writeByte Config.i2cWrite c true) s) ∧
  (∀ (c : Byte) (text : List Byte) (s : State),
    exec (.print (c :: text)) s = andThen (exec (.putChar c) s) (exec (.print text))) ∧
  (∀ (col row : Byte) (text : List Byte) (s : State),
    exec (.printAt col row text) s = andThen (exec (.goto col row) s) (exec (.print text)))

/-- R138 (a), R100: repeating an operation with equal operands repeats its trace and leaves `ADDR` and `BL` as they were. -/
def Obligations.RepetitionRepeatsTheTrace : Prop :=
  ∀ (i : Instr) (s : State), idle s → busRegistersWritten s →
    i ≠ .init → (∀ a, i ≠ .setAddress a) → i ≠ .backlightOn → i ≠ .backlightOff →
    ∃ t u tr, exec i s = .next t ∧ exec i t = .next u ∧
      t.trace = s.trace ++ tr ∧ u.trace = t.trace ++ tr ∧
      u.regs.addr = s.regs.addr ∧ u.regs.bl = s.regs.bl

/-- R138 (b): `init()` followed at once by `print_at(1, 1, "OK")`. -/
def Obligations.InitThenPrintAt : Prop :=
  ∀ s : State, idle s →
    ∃ t u, exec .init s = .next t ∧ exec (.printAt 1 1 [0x4F, 0x4B]) t = .next u ∧
      u.trace = s.trace ++ initTrace Config.params
        ++ byteTrace Config.params.cfgAddr 0x80 false Config.params.cfgBl
        ++ byteTrace Config.params.cfgAddr 0x4F true Config.params.cfgBl
        ++ byteTrace Config.params.cfgAddr 0x4B true Config.params.cfgBl

/-! ## The invariant and the small-step form -/

/-- The invariant holds at power-on. -/
def Obligations.InvariantAtPowerOn : Prop := Invariant State.reset

/-- R82, R64, R26: every step, from every state that meets the invariant, keeps it: the trace never leaves the strobe
protocol, and the sequence position stays in its trace. -/
def Obligations.StepKeepsTheInvariant : Prop :=
  ∀ s t : State, Invariant s → step s = .next t → Invariant t

/-- R82, R64, R26: so does every small step. -/
def Obligations.SmallStepKeepsTheInvariant : Prop :=
  ∀ s t : State, Invariant s → microStep s = .next t → Invariant t

/-- R26: issue, step and retire. At issue the pending events are the trace the big-step form gives. A register write is
committed with the event it precedes (the model's choice, log entry 8). -/
def Obligations.IssueStepRetire : Prop :=
  (∀ (i : Instr) (s t : State), exec i s = .next t →
    ∃ u, issueInstr i s = .next u ∧ u.pc = some 0 ∧ u.trace = s.trace ∧ u.port = s.port ∧
      t.trace = s.trace ++ u.pending.map Slot.event) ∧
  (∀ (s : State) (k : Nat) (slot : Slot), s.pc = some k → s.pending[k]? = some slot →
    microStep s = .next { s with regs := slot.regs, trace := s.trace ++ [slot.event], pc := some (k + 1) } ∧
    step s = microStep s) ∧
  (∀ (s : State) (k : Nat), s.pc = some k → k = s.pending.length →
    microStep s = .next { s with pc := none, pending := [] } ∧ step s = microStep s)

/-- R10, R26: the two forms agree at operation boundaries: issue, one small step for each event and the retirement reach
exactly the state of the one big step, and on the way the first `k` events have been emitted at position `k`. -/
def Obligations.SmallStepsReachTheBigStep : Prop :=
  ∀ (s t : State) (i : Instr) (rest : List Byte), idle s → s.pending = [] → decode s.port = .instr i rest →
    step s = .next t →
    ∃ tr, t.trace = s.trace ++ tr ∧ microRun (tr.length + 2) s = .next t ∧
      ∀ k, k ≤ tr.length →
        ∃ u, microRun (k + 1) s = .next u ∧ u.pc = some k ∧ u.trace = s.trace ++ tr.take k
end

