-- ==== Sys2Proof/Laws/Decode.lean ====
section
/-! SUPPORT. What the text scan of the command port does, in both directions (spec/30_encoding.md R63). -/

namespace Sys2Proof.Laws

/-- A text without 0x00 and its terminator are split off, whatever follows. -/
theorem takeText_of_wf (text rest : List Byte) (h : textWf text = true) :
    takeText (text ++ 0#8 :: rest) = some (text, rest) := by
  induction text with
  | nil => simp [takeText]
  | cons c text ih =>
    simp only [textWf, List.all_cons, Bool.and_eq_true, bne_iff_ne, ne_eq, BitVec.ofNat_eq_ofNat] at h
    simp only [List.cons_append, takeText, if_neg h.1]
    rw [ih (by simpa [textWf] using h.2)]

/-- What is split off is a text without 0x00 that stood before a terminator. -/
theorem takeText_some {bs text rest : List Byte} (h : takeText bs = some (text, rest)) :
    bs = text ++ 0#8 :: rest ∧ textWf text = true := by
  induction bs generalizing text with
  | nil => simp [takeText] at h
  | cons b bs ih =>
    by_cases hb : b = 0#8
    · simp [takeText, hb] at h
      obtain ⟨rfl, rfl⟩ := h
      exact ⟨by simp [hb], rfl⟩
    · simp only [takeText, if_neg hb] at h
      cases ht : takeText bs with
      | none => simp [ht] at h
      | some p =>
        obtain ⟨t, r⟩ := p
        simp only [ht, Option.some.injEq, Prod.mk.injEq] at h
        obtain ⟨rfl, rfl⟩ := h
        obtain ⟨h1, h2⟩ := ih ht
        exact ⟨by simp [h1], by simp_all [textWf]⟩

/-- Without a 0x00 there is no text yet. -/
theorem takeText_none {bs : List Byte} (h : textWf bs = true) : takeText bs = none := by
  induction bs with
  | nil => rfl
  | cons b bs ih =>
    simp only [textWf, List.all_cons, Bool.and_eq_true, bne_iff_ne, ne_eq, BitVec.ofNat_eq_ofNat] at h
    simp only [takeText, if_neg h.1]
    rw [ih (by simpa [textWf] using h.2)]

end Sys2Proof.Laws
end

