-- ==== Sys2Proof/Laws/State.lean ====
section
/-! SUPPORT. What each field reads after each update of a run, of the state or of the configuration. -/

namespace Sys2Proof.Laws

open Sys2Proof.Machine

@[simp] theorem i2cWrite_apply (a : I2cAddr) (v : Byte) : Config.i2cWrite a v = [.tx a v] := rfl
@[simp] theorem params_transport : Config.params.transport = Config.i2cWrite := rfl
@[simp] theorem suggested_transport : Config.suggested.transport = Config.i2cWrite := rfl

@[simp] theorem start_regs (d : DisplayState) : (Run.start d).regs = d := rfl
@[simp] theorem start_slots (d : DisplayState) : (Run.start d).slots = [] := rfl
@[simp] theorem start_events (d : DisplayState) : (Run.start d).events = [] := rfl

@[simp] theorem emit_regs (e : Event) (r : Run) : (emit e r).regs = r.regs := rfl
@[simp] theorem emit_slots (e : Event) (r : Run) : (emit e r).slots = r.slots ++ [⟨r.regs, e⟩] := rfl
@[simp] theorem emit_events (e : Event) (r : Run) : (emit e r).events = r.events ++ [e] := by
  simp [Run.events]

@[simp] theorem emitAll_nil (r : Run) : emitAll [] r = r := rfl
@[simp] theorem emitAll_cons (e : Event) (es : List Event) (r : Run) :
    emitAll (e :: es) r = emitAll es (emit e r) := rfl
/-- All that emitting a list of events does. -/
theorem emitAll_eq (es : List Event) (r : Run) : emitAll es r = ⟨r.regs, r.slots ++ es.map (Slot.mk r.regs)⟩ := by
  induction es generalizing r with
  | nil => simp
  | cons e es ih => simp [ih]
@[simp] theorem emitAll_regs (es : List Event) (r : Run) : (emitAll es r).regs = r.regs := by rw [emitAll_eq]
@[simp] theorem emitAll_slots (es : List Event) (r : Run) :
    (emitAll es r).slots = r.slots ++ es.map (Slot.mk r.regs) := by
  rw [emitAll_eq]
@[simp] theorem emitAll_events (es : List Event) (r : Run) : (emitAll es r).events = r.events ++ es := by
  simp [Run.events, Function.comp_def]

@[simp] theorem wait_regs (t : Nat) (r : Run) : (wait t r).regs = r.regs := rfl
@[simp] theorem wait_slots (t : Nat) (r : Run) : (wait t r).slots = r.slots ++ [⟨r.regs, .wait t⟩] := rfl
@[simp] theorem wait_events (t : Nat) (r : Run) : (wait t r).events = r.events ++ [.wait t] :=
  emit_events _ _

@[simp] theorem writeAddr_addr (a : I2cAddr) (r : Run) : (writeAddr a r).regs.addr = a := rfl
@[simp] theorem writeAddr_bl (a : I2cAddr) (r : Run) : (writeAddr a r).regs.bl = r.regs.bl := rfl
@[simp] theorem writeAddr_rs (a : I2cAddr) (r : Run) : (writeAddr a r).regs.rs = r.regs.rs := rfl
@[simp] theorem writeAddr_addrWritten (a : I2cAddr) (r : Run) : (writeAddr a r).regs.addrWritten = true := rfl
@[simp] theorem writeAddr_blWritten (a : I2cAddr) (r : Run) :
    (writeAddr a r).regs.blWritten = r.regs.blWritten := rfl
@[simp] theorem writeAddr_rsWritten (a : I2cAddr) (r : Run) :
    (writeAddr a r).regs.rsWritten = r.regs.rsWritten := rfl
@[simp] theorem writeAddr_draws (a : I2cAddr) (r : Run) : (writeAddr a r).regs.draws = r.regs.draws := rfl
@[simp] theorem writeAddr_slots (a : I2cAddr) (r : Run) : (writeAddr a r).slots = r.slots := rfl
@[simp] theorem writeAddr_events (a : I2cAddr) (r : Run) : (writeAddr a r).events = r.events := rfl

@[simp] theorem writeBl_addr (b : Bool) (r : Run) : (writeBl b r).regs.addr = r.regs.addr := rfl
@[simp] theorem writeBl_bl (b : Bool) (r : Run) : (writeBl b r).regs.bl = b := rfl
@[simp] theorem writeBl_rs (b : Bool) (r : Run) : (writeBl b r).regs.rs = r.regs.rs := rfl
@[simp] theorem writeBl_addrWritten (b : Bool) (r : Run) :
    (writeBl b r).regs.addrWritten = r.regs.addrWritten := rfl
@[simp] theorem writeBl_blWritten (b : Bool) (r : Run) : (writeBl b r).regs.blWritten = true := rfl
@[simp] theorem writeBl_rsWritten (b : Bool) (r : Run) : (writeBl b r).regs.rsWritten = r.regs.rsWritten := rfl
@[simp] theorem writeBl_draws (b : Bool) (r : Run) : (writeBl b r).regs.draws = r.regs.draws := rfl
@[simp] theorem writeBl_slots (b : Bool) (r : Run) : (writeBl b r).slots = r.slots := rfl
@[simp] theorem writeBl_events (b : Bool) (r : Run) : (writeBl b r).events = r.events := rfl

@[simp] theorem writeRs_addr (b : Bool) (r : Run) : (writeRs b r).regs.addr = r.regs.addr := rfl
@[simp] theorem writeRs_bl (b : Bool) (r : Run) : (writeRs b r).regs.bl = r.regs.bl := rfl
@[simp] theorem writeRs_rs (b : Bool) (r : Run) : (writeRs b r).regs.rs = b := rfl
@[simp] theorem writeRs_addrWritten (b : Bool) (r : Run) :
    (writeRs b r).regs.addrWritten = r.regs.addrWritten := rfl
@[simp] theorem writeRs_blWritten (b : Bool) (r : Run) : (writeRs b r).regs.blWritten = r.regs.blWritten := rfl
@[simp] theorem writeRs_rsWritten (b : Bool) (r : Run) : (writeRs b r).regs.rsWritten = true := rfl
@[simp] theorem writeRs_draws (b : Bool) (r : Run) : (writeRs b r).regs.draws = r.regs.draws := rfl
@[simp] theorem writeRs_slots (b : Bool) (r : Run) : (writeRs b r).slots = r.slots := rfl
@[simp] theorem writeRs_events (b : Bool) (r : Run) : (writeRs b r).events = r.events := rfl

@[simp] theorem countDraw_regs (r : Run) :
    (countDraw r).regs = { r.regs with draws := r.regs.draws + 1 } := rfl
@[simp] theorem countDraw_slots (r : Run) : (countDraw r).slots = r.slots := rfl
@[simp] theorem countDraw_events (r : Run) : (countDraw r).events = r.events := rfl

@[simp] theorem presentBytes_regs (bs : List Byte) (s : State) : (presentBytes bs s).regs = s.regs := rfl
@[simp] theorem presentBytes_pc (bs : List Byte) (s : State) : (presentBytes bs s).pc = none := rfl
@[simp] theorem presentBytes_pending (bs : List Byte) (s : State) : (presentBytes bs s).pending = [] := rfl
@[simp] theorem presentBytes_trace (bs : List Byte) (s : State) : (presentBytes bs s).trace = s.trace := rfl
@[simp] theorem presentBytes_port (bs : List Byte) (s : State) : (presentBytes bs s).port = bs ++ s.port := rfl

end Sys2Proof.Laws
end

