-- ==== Sys2Proof/Laws/Ops.lean ====
section
/-! SUPPORT. One lemma per shared operation that says everything it can do. Cite these; do not unfold the operations. -/

namespace Sys2Proof.Laws

open Sys2Proof.Machine Sys2Proof.Safety

/-! ## Reading registers -/

@[simp] theorem readAddr_written {r : Run} (h : r.regs.addrWritten = true) : readAddr r = (r.regs.addr, r) := by
  simp [readAddr, h]

theorem readAddr_unwritten {r : Run} (h : r.regs.addrWritten = false) :
    readAddr r = (Config.freeAddr r.regs.draws, countDraw r) := by
  simp [readAddr, h]

@[simp] theorem readBl_written {r : Run} (h : r.regs.blWritten = true) : readBl r = (r.regs.bl, r) := by
  simp [readBl, h]

theorem readBl_unwritten {r : Run} (h : r.regs.blWritten = false) :
    readBl r = (Config.freeBl r.regs.draws, countDraw r) := by
  simp [readBl, h]

/-- Reading `ADDR` leaves the run as it is or counts one draw. -/
theorem readAddr_run (r : Run) : (readAddr r).2 = r ∨ (readAddr r).2 = countDraw r := by
  unfold readAddr; split <;> simp

/-- Reading `BL` leaves the run as it is or counts one draw. -/
theorem readBl_run (r : Run) : (readBl r).2 = r ∨ (readBl r).2 = countDraw r := by
  unfold readBl; split <;> simp

@[simp] theorem readAddr_slots (r : Run) : (readAddr r).2.slots = r.slots := by
  rcases readAddr_run r with h | h <;> simp [h]

@[simp] theorem readBl_slots (r : Run) : (readBl r).2.slots = r.slots := by
  rcases readBl_run r with h | h <;> simp [h]

@[simp] theorem readAddr_events (r : Run) : (readAddr r).2.events = r.events := by
  simp [Run.events]

@[simp] theorem readBl_events (r : Run) : (readBl r).2.events = r.events := by
  simp [Run.events]

/-- No read changes anything of the register file but the draw counter. -/
theorem readAddr_regs (r : Run) : ∃ n, (readAddr r).2.regs = { r.regs with draws := n } := by
  rcases readAddr_run r with h | h
  · exact ⟨r.regs.draws, by rw [h]⟩
  · exact ⟨r.regs.draws + 1, by rw [h]; rfl⟩

theorem readBl_regs (r : Run) : ∃ n, (readBl r).2.regs = { r.regs with draws := n } := by
  rcases readBl_run r with h | h
  · exact ⟨r.regs.draws, by rw [h]⟩
  · exact ⟨r.regs.draws + 1, by rw [h]; rfl⟩

/-! ## The micro-operations with their registers written, under the transport of R6 -/

@[simp] theorem sendExpanderByte_i2cWrite (v : Byte) (r : Run) :
    sendExpanderByte Config.i2cWrite v r = emit (.tx (readAddr r).1 v) (readAddr r).2 := rfl

theorem sendExpanderByte_written {r : Run} (v : Byte) (h : r.regs.addrWritten = true) :
    sendExpanderByte Config.i2cWrite v r = ⟨r.regs, r.slots ++ [⟨r.regs, .tx r.regs.addr v⟩]⟩ := by
  simp [h, emit]

@[simp] theorem xbyte_clear (n : Byte) (rs bl : Bool) :
    xbyte n rs bl false = dataByte n rs ||| blBit bl := by
  simp [xbyte]

@[simp] theorem xbyte_set (n : Byte) (rs bl : Bool) :
    xbyte n rs bl true = dataByte n rs ||| blBit bl ||| 0x04 := rfl

theorem writeNibble_written {r : Run} (n : Byte) (rs bl : Bool) (h : r.regs.addrWritten = true) :
    writeNibble Config.i2cWrite n rs bl r
      = ⟨r.regs, r.slots ++ (nibbleTrace r.regs.addr n rs bl).map (Slot.mk r.regs)⟩ := by
  simp [writeNibble, h, wait, emit, nibbleTrace, tPw, tSettle, dataByte, rsBit, blBit]

theorem callNibble_written {r : Run} (n : Byte) (rs : Bool) (ha : r.regs.addrWritten = true)
    (hb : r.regs.blWritten = true) :
    callNibble Config.i2cWrite n rs r
      = ⟨r.regs, r.slots ++ (nibbleTrace r.regs.addr n rs r.regs.bl).map (Slot.mk r.regs)⟩ := by
  simp [callNibble, hb, writeNibble_written, ha]

theorem writeByte_written {r : Run} (v : Byte) (d : Bool) (ha : r.regs.addrWritten = true)
    (hb : r.regs.blWritten = true) :
    writeByte Config.i2cWrite v d r = ⟨(writeRs d r).regs,
      r.slots ++ (byteTrace r.regs.addr v d r.regs.bl).map (Slot.mk (writeRs d r).regs)⟩ := by
  simp [writeByte, callNibble_written, ha, hb, readRs, byteTrace, hiNibble, loNibble]

theorem sendIdleByte_written {r : Run} (ha : r.regs.addrWritten = true) (hb : r.regs.blWritten = true) :
    sendIdleByte Config.i2cWrite r = ⟨r.regs, r.slots ++ [⟨r.regs, .tx r.regs.addr (blBit r.regs.bl)⟩]⟩ := by
  simp [sendIdleByte, ha, hb, emit]

/-! ## Carrying out, issuing and advancing -/

theorem perform_idle {s : State} (p : Run → Run) (h : s.pc = none) :
    perform p s = .next { s with regs := (p (Run.start s.regs)).regs,
                                 trace := s.trace ++ (p (Run.start s.regs)).events } := by
  simp [perform, h]

theorem perform_busy {s : State} {k : Nat} (p : Run → Run) (h : s.pc = some k) :
    perform p s = .refused .busy := by
  simp [perform, h]

/-- All an operation carried out whole can do. -/
theorem perform_next {s t : State} {p : Run → Run} (h : perform p s = .next t) :
    s.pc = none ∧ t = { s with regs := (p (Run.start s.regs)).regs,
                               trace := s.trace ++ (p (Run.start s.regs)).events } := by
  cases hpc : s.pc with
  | none => rw [perform_idle p hpc] at h; injection h with h; exact ⟨rfl, by rw [← h, ← hpc]⟩
  | some k => rw [perform_busy p hpc] at h; cases h

theorem perform_never_faults {s : State} {p : Run → Run} {f : Fault} : perform p s ≠ .fault f := by
  cases hpc : s.pc with
  | none => simp [perform_idle p hpc]
  | some k => simp [perform_busy p hpc]

theorem issue_idle {s : State} (p : Run → Run) (h : s.pc = none) :
    issue p s = .next { s with
      regs := if (p (Run.start s.regs)).slots.isEmpty then (p (Run.start s.regs)).regs else s.regs
      pending := (p (Run.start s.regs)).slots
      pc := some 0 } := by
  simp [issue, h]

theorem advance_emits {s : State} {k : Nat} {slot : Slot} (h : s.pending[k]? = some slot) :
    advance k s = .next { s with regs := slot.regs, trace := s.trace ++ [slot.event], pc := some (k + 1) } := by
  simp [advance, h]

theorem advance_retires {s : State} {k : Nat} (h : k = s.pending.length) :
    advance k s = .next { s with pc := none, pending := [] } := by
  subst h; simp [advance]

/-- All that `advance` can do. -/
theorem advance_cases (k : Nat) (s : State) :
    (∃ slot, s.pending[k]? = some slot ∧
      advance k s = .next { s with regs := slot.regs, trace := s.trace ++ [slot.event], pc := some (k + 1) }) ∨
    (k = s.pending.length ∧ advance k s = .next { s with pc := none, pending := [] }) ∨
    (s.pending.length < k ∧ advance k s = .fault .sequencePosition) := by
  rcases Nat.lt_trichotomy k s.pending.length with h | h | h
  · exact .inl ⟨s.pending[k], by simp [h], advance_emits (by simp [h])⟩
  · exact .inr (.inl ⟨h, advance_retires h⟩)
  · refine .inr (.inr ⟨h, ?_⟩)
    have hk : s.pending[k]? = none := by simp; omega
    simp [advance, hk]; omega

/-- Every arm of `exec` carries out its operation's pseudocode. -/
theorem exec_eq_perform (i : Instr) (s : State) : exec i s = perform (procedure i) s := by
  cases i <;> rfl

theorem step_idle {s : State} (h : s.pc = none) : step s = takeCommand exec s := by
  simp [step, h]

theorem step_busy {s : State} {k : Nat} (h : s.pc = some k) : step s = advance k s := by
  simp [step, h]

theorem microStep_idle {s : State} (h : s.pc = none) : microStep s = takeCommand issueInstr s := by
  simp [microStep, h]

theorem microStep_busy {s : State} {k : Nat} (h : s.pc = some k) : microStep s = advance k s := by
  simp [microStep, h]

/-- All that taking a command can do. -/
theorem takeCommand_cases (run : Instr → State → Host.Outcome State Fault Refusal) (s : State) :
    (∃ i rest, decode s.port = .instr i rest ∧ takeCommand run s = run i { s with port := rest }) ∨
    (∃ op, takeCommand run s = .refused (.reservedOpcode op)) ∨
    (∃ b, takeCommand run s = .refused (.reservedOperand b)) ∨
    takeCommand run s = .next s := by
  cases h : decode s.port with
  | instr i rest => exact .inl ⟨i, rest, rfl, by simp [takeCommand, h]⟩
  | reservedOpcode op => exact .inr (.inl ⟨op, by simp [takeCommand, h]⟩)
  | reservedOperand b => exact .inr (.inr (.inl ⟨b, by simp [takeCommand, h]⟩))
  | incomplete => exact .inr (.inr (.inr (by simp [takeCommand, h])))

/-! ## Pseudocode appends: what was emitted before a call neither changes nor is read -/

variable (transport : Config.Transport)

/-- A procedure that only appends to the trace of the run it is called in. -/
def Appends (p : Run → Run) : Prop :=
  ∀ r, p r = ⟨(p (Run.start r.regs)).regs, r.slots ++ (p (Run.start r.regs)).slots⟩

theorem appends_id : Appends fun r => r := by intro r; simp

theorem appends_comp {p q : Run → Run} (hq : Appends q) (hp : Appends p) : Appends fun r => q (p r) := by
  intro r
  have h := hq (p (Run.start r.regs))
  have h' := hq (p r)
  simp only [hp r] at h' ⊢
  simp [h', h]

theorem appends_writeAddr (a : I2cAddr) : Appends (writeAddr a) := by intro r; simp [writeAddr]
theorem appends_writeBl (b : Bool) : Appends (writeBl b) := by intro r; simp [writeBl]
theorem appends_writeRs (b : Bool) : Appends (writeRs b) := by intro r; simp [writeRs]
theorem appends_wait (t : Nat) : Appends (wait t) := by intro r; simp [wait, emit]

theorem appends_sendExpanderByte (v : Byte) : Appends (sendExpanderByte transport v) := by
  intro r
  cases h : r.regs.addrWritten <;> simp [sendExpanderByte, readAddr, h, emitAll_eq, countDraw]

theorem appends_writeNibble (n : Byte) (rs bl : Bool) : Appends (writeNibble transport n rs bl) := by
  have h := appends_comp (appends_wait tSettle) (appends_comp (appends_sendExpanderByte transport (xbyte n rs bl false))
    (appends_comp (appends_wait tPw) (appends_comp (appends_sendExpanderByte transport (xbyte n rs bl true))
      (appends_sendExpanderByte transport (xbyte n rs bl false)))))
  exact h

theorem appends_countDraw : Appends countDraw := by intro r; simp [countDraw]

theorem appends_callNibble (n : Byte) (rs : Bool) : Appends (callNibble transport n rs) := by
  intro r
  cases h : r.regs.blWritten
  · have h' := appends_comp (appends_writeNibble transport n rs (Config.freeBl r.regs.draws)) appends_countDraw r
    simpa [callNibble, readBl, h] using h'
  · have h' := appends_writeNibble transport n rs r.regs.bl r
    simpa [callNibble, readBl, h] using h'

theorem appends_sendIdleByte : Appends (sendIdleByte transport) := by
  intro r
  cases h : r.regs.blWritten
  · have h' := appends_comp (appends_sendExpanderByte transport (0x00 ||| blBit (Config.freeBl r.regs.draws)))
      appends_countDraw r
    simpa [sendIdleByte, readBl, h] using h'
  · have h' := appends_sendExpanderByte transport (0x00 ||| blBit r.regs.bl) r
    simpa [sendIdleByte, readBl, h] using h'

/-- A transmission changes nothing of the register file but the draw counter. -/
theorem sendExpanderByte_regs (v : Byte) (r : Run) :
    ∃ n, (sendExpanderByte transport v r).regs = { r.regs with draws := n } := by
  simpa [sendExpanderByte] using readAddr_regs r

/-- Nor does a nibble (R82). -/
theorem writeNibble_regs (n : Byte) (rs bl : Bool) (r : Run) :
    ∃ m, (writeNibble transport n rs bl r).regs = { r.regs with draws := m } := by
  obtain ⟨_, h1⟩ := sendExpanderByte_regs transport (xbyte n rs bl false) r
  obtain ⟨_, h2⟩ := sendExpanderByte_regs transport (xbyte n rs bl true)
    (sendExpanderByte transport (xbyte n rs bl false) r)
  obtain ⟨m, h3⟩ := sendExpanderByte_regs transport (xbyte n rs bl false)
    (wait tPw (sendExpanderByte transport (xbyte n rs bl true) (sendExpanderByte transport (xbyte n rs bl false) r)))
  refine ⟨m, ?_⟩
  rw [wait_regs, h2, h1] at h3
  exact h3

theorem callNibble_regs (n : Byte) (rs : Bool) (r : Run) :
    ∃ m, (callNibble transport n rs r).regs = { r.regs with draws := m } := by
  obtain ⟨_, h1⟩ := readBl_regs r
  obtain ⟨m, h2⟩ := writeNibble_regs transport n rs (readBl r).1 (readBl r).2
  exact ⟨m, by rw [callNibble, h2, h1]⟩

theorem sendIdleByte_regs (r : Run) : ∃ m, (sendIdleByte transport r).regs = { r.regs with draws := m } := by
  obtain ⟨_, h1⟩ := readBl_regs r
  obtain ⟨m, h2⟩ := sendExpanderByte_regs transport (0x00 ||| blBit (readBl r).1) (readBl r).2
  exact ⟨m, by rw [sendIdleByte, h2, h1]⟩

@[simp] theorem callNibble_rs (n : Byte) (rs : Bool) (r : Run) : (callNibble transport n rs r).regs.rs = r.regs.rs := by
  obtain ⟨_, h⟩ := callNibble_regs transport n rs r
  rw [h]

/-- `write_byte` is two nibbles with register-select `d` after the write of `RS` (R83). -/
theorem writeByte_eq (v : Byte) (d : Bool) (r : Run) :
    writeByte transport v d r
      = callNibble transport (loNibble v) d (callNibble transport (hiNibble v) d (writeRs d r)) := by
  simp [writeByte, readRs]

/-- `write_byte` writes `RS` and nothing else but the draw counter (R83). -/
theorem writeByte_regs (v : Byte) (d : Bool) (r : Run) :
    ∃ m, (writeByte transport v d r).regs = { (writeRs d r).regs with draws := m } := by
  obtain ⟨_, h1⟩ := callNibble_regs transport (hiNibble v) d (writeRs d r)
  obtain ⟨m, h2⟩ := callNibble_regs transport (loNibble v) d (callNibble transport (hiNibble v) d (writeRs d r))
  exact ⟨m, by rw [writeByte_eq, h2, h1]⟩

theorem appends_writeByte (v : Byte) (d : Bool) : Appends (writeByte transport v d) := by
  rw [show writeByte transport v d = _ from funext (writeByte_eq transport v d)]
  exact appends_comp (appends_callNibble transport _ _)
    (appends_comp (appends_callNibble transport _ _) (appends_writeRs d))

theorem appends_initPulse (n : Byte) : Appends (initPulse transport n) := by
  have h := appends_comp (appends_wait tStep) (appends_callNibble transport n false)
  exact h

theorem appends_initCommand (c : Byte) : Appends (initCommand transport c) := by
  have h := appends_comp (appends_wait tStep) (appends_writeByte transport c false)
  exact h

theorem appends_initStateReset (cfg : Config.Params) : Appends (initStateReset cfg) := by
  have h := appends_comp (appends_writeRs false)
    (appends_comp (appends_writeBl cfg.cfgBl) (appends_writeAddr cfg.cfgAddr))
  exact h

theorem appends_initPinsIdle : Appends (initPinsIdle transport) := by
  have h := appends_comp (appends_wait tPor) (appends_sendIdleByte transport)
  exact h

theorem appends_initProcedure (cfg : Config.Params) : Appends (initProcedure cfg) := by
  have h := appends_comp (appends_initCommand cfg.transport cfg.cmdDisplayOn) <|
    appends_comp (appends_initCommand cfg.transport cfg.cmdEntryInc) <|
    appends_comp (appends_initCommand cfg.transport cmdClear) <|
    appends_comp (appends_initCommand cfg.transport cfg.cmdDisplayOn) <|
    appends_comp (appends_initCommand cfg.transport cfg.cmdFunctionSet) <|
    appends_comp (appends_initPulse cfg.transport fourBitNibble) <|
    appends_comp (appends_initPulse cfg.transport wakeNibble) <|
    appends_comp (appends_initPulse cfg.transport wakeNibble) <|
    appends_comp (appends_initPulse cfg.transport wakeNibble) <|
    appends_comp (appends_initPinsIdle cfg.transport) (appends_initStateReset cfg)
  exact h

theorem appends_clearProcedure : Appends (clearProcedure transport) := by
  have h := appends_comp (appends_wait tClr) (appends_writeByte transport cmdClear false)
  exact h

theorem appends_homeProcedure : Appends (homeProcedure transport) := by
  have h := appends_comp (appends_wait tClr) (appends_writeByte transport cmdHome false)
  exact h

theorem appends_gotoProcedure (col row : Int) : Appends (gotoProcedure transport col row) :=
  appends_writeByte transport (gotoCmd col row) false

theorem appends_printProcedure (text : List Byte) : Appends (printProcedure transport text) := by
  induction text with
  | nil => exact appends_id
  | cons c text ih =>
    have h := appends_comp ih (appends_writeByte transport c true)
    exact h

theorem appends_printAtProcedure (col row : Int) (text : List Byte) :
    Appends (printAtProcedure transport col row text) := by
  have h := appends_comp (appends_printProcedure transport text) (appends_gotoProcedure transport col row)
  exact h

theorem appends_backlightOnProcedure : Appends (backlightOnProcedure transport) := by
  have h := appends_comp (appends_sendIdleByte transport) (appends_writeBl true)
  exact h

theorem appends_backlightOffProcedure : Appends (backlightOffProcedure transport) := by
  have h := appends_comp (appends_sendIdleByte transport) (appends_writeBl false)
  exact h

/-- Every operation's pseudocode only appends, under every configuration (spec/20_memory.md R51). -/
theorem appends_procedureWith (cfg : Config.Params) (i : Instr) : Appends (procedureWith cfg i) := by
  cases i with
  | init => exact appends_initProcedure _
  | setAddress a => exact appends_writeAddr a
  | clear => exact appends_clearProcedure cfg.transport
  | home => exact appends_homeProcedure cfg.transport
  | goto col row => exact appends_gotoProcedure cfg.transport _ _
  | putChar c => exact appends_writeByte cfg.transport c true
  | print text => exact appends_printProcedure cfg.transport text
  | printAt col row text => exact appends_printAtProcedure cfg.transport _ _ text
  | backlightOn => exact appends_backlightOnProcedure cfg.transport
  | backlightOff => exact appends_backlightOffProcedure cfg.transport

/-- So does every operation's pseudocode in this machine. -/
theorem appends_procedure (i : Instr) : Appends (procedure i) := appends_procedureWith Config.params i

/-! ## The same core on another bus -/

@[simp] theorem retarget_append (es fs : List Event) :
    retarget transport (es ++ fs) = retarget transport es ++ retarget transport fs := by
  induction es with
  | nil => rfl
  | cons e es ih => cases e <;> simp [retarget, ih]

/-! ## The strobe protocol -/

@[simp] theorem phaseAfter_nil (p : Phase) : phaseAfter p [] = p := rfl

@[simp] theorem phaseAfter_cons (p : Phase) (e : Event) (es : List Event) :
    phaseAfter p (e :: es) = phaseAfter (p.next e) es := rfl

@[simp] theorem phaseAfter_append (p : Phase) (es fs : List Event) :
    phaseAfter p (es ++ fs) = phaseAfter (phaseAfter p es) fs := by
  simp [phaseAfter]

end Sys2Proof.Laws
end

