-- ==== Sys2Proof/Laws/PerInstr.lean ====
section
/-! SUPPORT. One statement per operation as syntax: the length of its byte form (spec/30_encoding.md R60). -/

namespace Sys2Proof.Laws.EncodedLength

/-- The encoding has the bytes of its format and those of its text, and nothing else. -/
def Statement (i : Instr) : Prop := (encode i).length = i.format.fixedLength + i.text.length

theorem init : Statement .init := rfl
theorem setAddress (addr : I2cAddr) : Statement (.setAddress addr) := rfl
theorem clear : Statement .clear := rfl
theorem home : Statement .home := rfl
theorem goto (col row : Byte) : Statement (.goto col row) := rfl
theorem putChar (c : Byte) : Statement (.putChar c) := rfl
theorem print (text : List Byte) : Statement (.print text) := by
  simp [Statement, encode, Instr.operandBytes, Instr.format, Format.fixedLength, Instr.text]; omega
theorem printAt (col row : Byte) (text : List Byte) : Statement (.printAt col row text) := by
  simp [Statement, encode, Instr.operandBytes, Instr.format, Format.fixedLength, Instr.text]; omega
theorem backlightOn : Statement .backlightOn := rfl
theorem backlightOff : Statement .backlightOff := rfl

end Sys2Proof.Laws.EncodedLength
end

