-- ==== Sys2Proof/Tests/Slice0.lean ====
section
/-! SUPPORT. Small tests, their expected results taken from spec/95_test_vectors.md and the rules it cites, and one named
witness for the hypotheses of each statement. -/

namespace Sys2Proof.Tests

open Sys2Proof.Machine Sys2Proof.Safety

/-! ## Helpers -/

/-- Idle, `ADDR` 0x27, `BL` on, `RS` clear, all written, nothing emitted. -/
def sample : State where
  regs := { addr := 0x27, bl := true, rs := false, addrWritten := true, blWritten := true, rsWritten := true, draws := 0 }
  pc := none
  pending := []
  trace := []
  port := []

/-- The same with the backlight off. -/
def dark : State := { sample with regs := { sample.regs with bl := false } }

/-- The trace of a next state. -/
def traceOf : Host.Outcome State Fault Refusal → Option (List Event)
  | .next t => some t.trace
  | .fault _ => none
  | .refused _ => none

/-- The transmitted bytes of a next state. -/
def bytesOf (o : Host.Outcome State Fault Refusal) : Option (List Byte) := (traceOf o).map txBytes

/-- The registers of a next state. -/
def regsOf : Host.Outcome State Fault Refusal → Option DisplayState
  | .next t => some t.regs
  | .fault _ => none
  | .refused _ => none

/-- The refusal, if any. -/
def refusalOf : Host.Outcome State Fault Refusal → Option Refusal
  | .next _ => none
  | .fault _ => none
  | .refused r => some r

/-! ## WellFormed: an ill-formed term for its one check, in both operations that carry a text (R63, R69 (b)) -/

theorem test_wf_print_refuses_zero : (Instr.print [0x41, 0x00, 0x42]).wf = false := by decide
theorem test_wf_printAt_refuses_zero : (Instr.printAt 1 1 [0x00]).wf = false := by decide
theorem test_wf_putChar_accepts_zero : (Instr.putChar 0x00).wf = true := by decide

/-! ## Decode: words written out bit by bit from R61 (and V9) -/

theorem test_decode_init : decode [0b00000000] = .instr .init [] := by decide
theorem test_decode_setAddress : decode [0b00000001, 0b01111111] = .instr (.setAddress 0b1111111) [] := by decide
theorem test_decode_setAddress_reserved : decode [0b00000001, 0b11001110] = .reservedOperand 0xCE := by decide
theorem test_decode_clear : decode [0b00000010, 0b00000011] = .instr .clear [0x03] := by decide
theorem test_decode_home : decode [0b00000011] = .instr .home [] := by decide
theorem test_decode_goto : decode [0b00000100, 0b00010100, 0b00000011] = .instr (.goto 20 3) [] := by decide
theorem test_decode_putChar : decode [0b00000101, 0b01000001] = .instr (.putChar 0x41) [] := by decide
theorem test_decode_print :
    decode [0b00000110, 0b01001111, 0b01001011, 0b00000000, 0b00001000] = .instr (.print [0x4F, 0x4B]) [0x08] := by
  decide
theorem test_decode_printAt :
    decode [0b00000111, 0b00010000, 0b00000010, 0b01001000, 0b01101001, 0b00000000]
      = .instr (.printAt 16 2 [0x48, 0x69]) [] := by
  decide
theorem test_decode_backlightOn : decode [0b00001000] = .instr .backlightOn [] := by decide
theorem test_decode_backlightOff : decode [0b00001001] = .instr .backlightOff [] := by decide
theorem test_decode_reserved : decode [0b00001010] = .reservedOpcode 0x0A := by decide
theorem test_decode_incomplete : decode [0b00000110, 0b01001111] = .incomplete := by decide

/-- A table word's low byte is the first byte of the command; missing operand bytes are zero. -/
theorem test_table_word_goto : decodeTableWord 24 0x031404 = some (.goto 20 3) := by decide
theorem test_table_word_printAt : decodeTableWord 8 0x07 = some (.printAt 0 0 []) := by decide

/-! ## Operations: one step each -/

/-- V8, the whole stream with the backlight configured on. -/
theorem test_init_bytes :
    txBytes (initProcedure Config.suggested (Run.start DisplayState.powerOn)).events =
      [0x08, 0x38, 0x3C, 0x38, 0x38, 0x3C, 0x38, 0x38, 0x3C, 0x38, 0x28, 0x2C, 0x28] ++
      [0x28, 0x2C, 0x28, 0x88, 0x8C, 0x88, 0x08, 0x0C, 0x08, 0xC8, 0xCC, 0xC8] ++
      [0x08, 0x0C, 0x08, 0x18, 0x1C, 0x18, 0x08, 0x0C, 0x08, 0x68, 0x6C, 0x68] ++
      [0x08, 0x0C, 0x08, 0xC8, 0xCC, 0xC8] := by
  decide +kernel

/-- R120: the waits, 85714 microseconds in 38 events. -/
theorem test_init_waits :
    traceCost (initProcedure Config.suggested (Run.start DisplayState.powerOn)).events = ⟨43, 38, 85714⟩ := by
  decide +kernel

/-- V7: ADDR 0x3F and an empty trace; BL and RS unchanged. -/
theorem test_setAddress : regsOf (exec (.setAddress 0x3F) sample) = some { sample.regs with addr := 0x3F } := by decide
theorem test_setAddress_no_traffic : traceOf (exec (.setAddress 0x7F) sample) = some [] := by decide

/-- V6. -/
theorem test_clear : traceOf (exec .clear sample) = some
    [.tx 0x27 0x08, .tx 0x27 0x0C, .wait 1, .tx 0x27 0x08, .wait 50,
     .tx 0x27 0x18, .tx 0x27 0x1C, .wait 1, .tx 0x27 0x18, .wait 50, .wait 2000] := by
  decide
theorem test_clear_dark : bytesOf (exec .clear dark) = some [0x00, 0x04, 0x00, 0x10, 0x14, 0x10] := by decide
theorem test_home : bytesOf (exec .home sample) = some [0x08, 0x0C, 0x08, 0x28, 0x2C, 0x28] := by decide
theorem test_home_dark : bytesOf (exec .home dark) = some [0x00, 0x04, 0x00, 0x20, 0x24, 0x20] := by decide

/-- V3: the clamped column with the row fallback, and the wrap. -/
theorem test_goto_clamp : bytesOf (exec (.goto 0 0) sample) = some [0xD8, 0xDC, 0xD8, 0x48, 0x4C, 0x48] := by decide
theorem test_goto_wrap : bytesOf (exec (.goto 45 4) sample) = some [0x08, 0x0C, 0x08, 0x08, 0x0C, 0x08] := by decide

/-- V2, R131. -/
theorem test_putChar : bytesOf (exec (.putChar 0x4F) sample) = some [0x49, 0x4D, 0x49, 0xF9, 0xFD, 0xF9] := by decide
theorem test_putChar_dark : bytesOf (exec (.putChar 0xA5) dark) = some [0xA1, 0xA5, 0xA1, 0x51, 0x55, 0x51] := by decide

/-- R132. -/
theorem test_print : bytesOf (exec (.print [0x4F, 0x4B]) sample) = some
    [0x49, 0x4D, 0x49, 0xF9, 0xFD, 0xF9, 0x49, 0x4D, 0x49, 0xB9, 0xBD, 0xB9] := by
  decide
/-- V10: nothing is sent and RS keeps its value. -/
theorem test_print_empty : regsOf (exec (.print []) sample) = some sample.regs := by decide

/-- P4, at the address and backlight it has there. -/
theorem test_printAt : bytesOf (exec (.printAt 16 2 [0x48, 0x69]) dark) = some
    [0xC0, 0xC4, 0xC0, 0xF0, 0xF4, 0xF0, 0x41, 0x45, 0x41, 0x81, 0x85, 0x81, 0x61, 0x65, 0x61, 0x91, 0x95, 0x91] := by
  decide
/-- V10: the empty text still moves the cursor, and RS ends false. -/
theorem test_printAt_empty :
    bytesOf (exec (.printAt 3 1 []) sample) = some [0x88, 0x8C, 0x88, 0x28, 0x2C, 0x28] ∧
    (regsOf (exec (.printAt 3 1 []) sample)).map DisplayState.rs = some false := by
  decide

/-- V7. -/
theorem test_backlightOn : traceOf (exec .backlightOn dark) = some [.tx 0x27 0x08] := by decide
theorem test_backlightOff : traceOf (exec .backlightOff sample) = some [.tx 0x27 0x00] := by decide

/-- R6: the bus primitive is replaceable; this one leads each byte with another. V7's byte is handed to it. -/
theorem test_transport_replaced :
    (backlightOnProcedure (fun a v => [.tx a 0x55, .tx a v]) (Run.start dark.regs)).events = [.tx 0x27 0x55, .tx 0x27 0x08] := by
  decide

/-- V11, last line but one: no `init`, yet every register is written before it is read. -/
theorem test_without_init :
    bytesOf (andThen (exec (.setAddress 0x27) State.reset) fun s => andThen (exec .backlightOn s) (exec (.putChar 0x41)))
      = some [0x08, 0x49, 0x4D, 0x49, 0x19, 0x1D, 0x19] := by
  decide

/-- V11, first line: `BL` is written although the transmission has no address to read. -/
theorem test_backlightOn_at_powerOn : (regsOf (exec .backlightOn State.reset)).map DisplayState.bl = some true := by
  decide

/-- R68, R69 (a): refused at the command port. -/
theorem test_step_reserved : refusalOf (step { sample with port := [0xFF] }) = some (.reservedOpcode 0xFF) := by decide
theorem test_step_reserved_operand : refusalOf (step { sample with port := [0x01, 0x80] }) = some (.reservedOperand 0x80) := by
  decide

/-- The first operation after power-on, presented as a table word. -/
theorem test_first_step : bytesOf (step (State.reset.withFetchWord 8 0x06)) = some [] := by decide

/-- V8: the latched nibbles of `init`. -/
theorem test_init_latched :
    latched (initProcedure Config.suggested (Run.start DisplayState.powerOn)).events =
      [(3, false), (3, false), (3, false), (2, false), (2, false), (8, false), (0, false), (0xC, false), (0, false),
       (1, false), (0, false), (6, false), (0, false), (0xC, false)] := by
  decide +kernel

/-! ## Witnesses: a state and operands that meet the hypotheses of each statement together -/

/-- `ADDR` written, `BL` not. -/
def addrOnly : State := { State.reset with regs := { DisplayState.powerOn with addr := 0x27, addrWritten := true } }

/-- In the middle of an operation: one event emitted, one still pending. -/
def busy : State where
  regs := sample.regs
  pc := some 1
  pending := [⟨sample.regs, .tx 0x27 0x08⟩, ⟨sample.regs, .wait 2000⟩]
  trace := [.tx 0x27 0x08]
  port := [0x02]

/-- At the end of an operation. -/
def finished : State := { busy with pc := some 2, trace := [.tx 0x27 0x08, .wait 2000] }

/-- `sample` with bytes on its command port. -/
def withPort (bs : List Byte) : State := { sample with port := bs }

theorem witness_UnwrittenReadsDrawFreeValues :
    (idle State.reset ∧ State.reset.regs.addrWritten = false) ∧
    (idle addrOnly ∧ addrOnly.regs.addrWritten = true ∧ addrOnly.regs.blWritten = false) := by
  decide

theorem witness_TraceIgnoresRsAndUnwrittenValues :
    idle addrOnly ∧ idle { addrOnly with regs := { addrOnly.regs with bl := true, rs := true } } ∧
    SameForBus addrOnly.regs { addrOnly.regs with bl := true, rs := true } ∧ ∃ t, exec .clear addrOnly = .next t :=
  ⟨rfl, rfl, ⟨rfl, rfl, fun _ => rfl, (fun h => by cases h), rfl⟩, _, rfl⟩

theorem witness_WrittenRegistersStayWritten :
    (∃ t, exec .init sample = .next t) ∧ (∃ t, exec .backlightOn sample = .next t) ∧
    (∃ t, exec .backlightOff sample = .next t) ∧
    sample.regs.addrWritten = true ∧ sample.regs.blWritten = true ∧ sample.regs.rsWritten = true :=
  ⟨⟨_, rfl⟩, ⟨_, rfl⟩, ⟨_, rfl⟩, rfl, rfl, rfl⟩

theorem witness_TransmittedBytesHaveTheLayout : ∃ t, exec (.putChar 0x41) sample = .next t := ⟨_, rfl⟩

theorem witness_CursorCommandByte : (1 : Int) ≤ 4 ∧ (4 : Int) ≤ 4 ∧ (44 : Int) ≤ 44 := by decide

theorem witness_CursorCorners :
    (0 : Int) < 1 ∧ ((1 : Int) ≤ 1 ∧ (1 : Int) ≤ 20) ∧ ((1 : Int) ≤ 20 ∧ (20 : Int) ≤ 20) ∧
    (0 : Int) ∉ ([1, 2, 3] : List Int) ∧ (4 : Int) ∉ ([1, 2, 3] : List Int) := by
  decide

theorem witness_RowFallback :
    (0 : Byte) ∉ ([1, 2, 3] : List Byte) ∧ (4 : Byte) ∉ ([1, 2, 3] : List Byte) ∧ (255 : Byte) ∉ ([1, 2, 3] : List Byte) ∧
    (0 : Int) ∉ ([1, 2, 3] : List Int) ∧ (4 : Int) ∉ ([1, 2, 3] : List Int) := by
  decide

theorem witness_InsideDisplayNeverWraps :
    (({ Config.suggested with columns := 44, rows := .four } : Config.Params).columns.val ≤ 44 ∧
      insideDisplay { Config.suggested with columns := 44, rows := .four } 44 4) ∧
    (Config.suggested.columns.val ≤ 44 ∧ insideDisplay Config.suggested 1 1) := by
  decide

theorem witness_DecodeOfEncode : (Instr.printAt 16 2 [0x48, 0x69]).wf = true ∧ (Instr.print []).wf = true := by decide

theorem witness_DecodedBytesAreTheEncoding :
    decode [0x07, 0x10, 0x02, 0x00, 0x08] = .instr (.printAt 16 2 []) [0x08] := by
  decide

theorem witness_IncompleteCommandsWait :
    (Instr.print [0x4F, 0x4B]).wf = true ∧ [0x06, 0x4F, 0x4B] <+: encode (.print [0x4F, 0x4B]) ∧
    [0x06, 0x4F, 0x4B] ≠ encode (.print [0x4F, 0x4B]) ∧
    idle (withPort [0x06, 0x4F, 0x4B]) ∧ (withPort [0x06, 0x4F, 0x4B]).port = [0x06, 0x4F, 0x4B] := by
  decide

theorem witness_ReservedOpcodesRefused :
    (idle (withPort [0x0A]) ∧ 0x0A ≤ (0x0A : Byte).toNat) ∧ (idle (withPort [0xFF]) ∧ 0x0A ≤ (0xFF : Byte).toNat) ∧
    (idle (withPort [0x09]) ∧ (0x09 : Byte).toNat < 0x0A) := by
  decide

theorem witness_OperandEncodings :
    (idle (withPort [0x01, 0x80]) ∧ (0x80 : Byte).getLsbD 7 = true) ∧
    decode [0x06, 0x01, 0x00] = .instr (.print [0x01]) [] ∧
    decode [0x07, 0x00, 0x00, 0xFF, 0x00] = .instr (.printAt 0 0 [0xFF]) [] ∧
    ((Instr.goto 1 2).wf = true ∧ [0x04, 0x01] <+: encode (.goto 1 2) ∧ [0x04, 0x01] ≠ encode (.goto 1 2)) := by
  decide

theorem witness_StepRunsTheDecodedOperation :
    idle (withPort [0x02, 0x03]) ∧ decode (withPort [0x02, 0x03]).port = .instr .clear [0x03] := by
  decide

theorem witness_PresentedWordRunsNext : decodeTableWord 16 0x4105 = some (.putChar 0x41) := by decide

theorem witness_IdleControllerWaits : final State.reset := by decide

theorem witness_BusyControllerAcceptsNothing : busy.pc = some 1 ∧ ∃ t, step busy = .next t := ⟨rfl, _, rfl⟩

theorem witness_TraceOnlyGrows : ∃ t, step (withPort [0x02]) = .next t := ⟨_, rfl⟩

theorem witness_Invariant : Invariant busy ∧ Invariant finished ∧ Invariant (withPort [0x0A]) :=
  ⟨⟨(by rintro k h; injection h with h; subst h; decide), by decide, by decide⟩,
   ⟨(by rintro k h; injection h with h; subst h; decide), by decide, by decide⟩,
   ⟨(by rintro k h; cases h), by decide, by decide⟩⟩

theorem witness_OnlyReservedEncodingsStop :
    Invariant (withPort [0x0A]) ∧ step (withPort [0x0A]) = .refused (.reservedOpcode 0x0A) :=
  ⟨witness_Invariant.2.2, rfl⟩

/-- For the statements about the micro-operations. -/
theorem witness_registers_written :
    (Run.start sample.regs).regs.addrWritten = true ∧ (Run.start sample.regs).regs.blWritten = true := by
  decide

theorem witness_LastByteHasEnableClear :
    ∃ t, exec .backlightOff sample = .next t ∧ standingByte t.trace = some 0x00 := ⟨_, rfl, by decide⟩

theorem witness_EitherEdgeLatchesTheSame : ∃ t, exec .clear sample = .next t := ⟨_, rfl⟩

/-- For the operations' results, `EveryOperationCompletes` and `InitThenPrintAt`. -/
theorem witness_results : idle sample ∧ busRegistersWritten sample := by decide

theorem witness_FrameOfOperations :
    (∃ t, exec (.goto 1 1) sample = .next t) ∧ (∃ t, exec (.setAddress 1) sample = .next t) ∧
    (∃ t, exec .backlightOn sample = .next t) ∧ (∃ t, exec .backlightOff sample = .next t) ∧
    (∃ t, exec (.print []) sample = .next t) ∧ busRegistersWritten sample :=
  ⟨⟨_, rfl⟩, ⟨_, rfl⟩, ⟨_, rfl⟩, ⟨_, rfl⟩, ⟨_, rfl⟩, by decide⟩

theorem witness_TransmissionsCarryRegisters :
    (∃ t, exec .clear sample = .next t) ∧
    (∃ slot ∈ (procedure .clear (Run.start sample.regs)).slots,
      slot.event = .tx 0x27 0x0C ∧ slot.regs.addrWritten = true ∧ slot.regs.blWritten = true) :=
  ⟨⟨_, rfl⟩, by decide⟩

theorem witness_RepetitionRepeatsTheTrace :
    idle sample ∧ busRegistersWritten sample ∧ (Instr.clear ≠ .init) ∧ (∀ a, Instr.clear ≠ .setAddress a) ∧
    (Instr.clear ≠ .backlightOn) ∧ (Instr.clear ≠ .backlightOff) :=
  ⟨rfl, by decide, by decide, (fun _ h => by cases h), by decide, by decide⟩

theorem witness_StepKeepsTheInvariant :
    (Invariant busy ∧ ∃ t, step busy = .next t) ∧ (Invariant finished ∧ ∃ t, step finished = .next t) :=
  ⟨⟨witness_Invariant.1, _, rfl⟩, ⟨witness_Invariant.2.1, _, rfl⟩⟩

theorem witness_SmallStepKeepsTheInvariant :
    (Invariant busy ∧ ∃ t, microStep busy = .next t) ∧ (Invariant finished ∧ ∃ t, microStep finished = .next t) :=
  ⟨⟨witness_Invariant.1, _, rfl⟩, ⟨witness_Invariant.2.1, _, rfl⟩⟩

theorem witness_IssueStepRetire :
    (∃ t, exec .home sample = .next t) ∧
    (busy.pc = some 1 ∧ busy.pending[1]? = some ⟨sample.regs, .wait 2000⟩) ∧
    (finished.pc = some 2 ∧ 2 = finished.pending.length) :=
  ⟨⟨_, rfl⟩, by decide, by decide⟩

theorem witness_SmallStepsReachTheBigStep :
    idle (withPort [0x02, 0x03]) ∧ (withPort [0x02, 0x03]).pending = [] ∧
    decode (withPort [0x02, 0x03]).port = .instr .clear [0x03] ∧ ∃ t, step (withPort [0x02, 0x03]) = .next t :=
  ⟨rfl, rfl, by decide, _, rfl⟩

end Sys2Proof.Tests
end

section
/-! Taking a command off the port: an idle controller carries out what its port decodes to, a busy one takes nothing
(spec/00_scope.md R10, R17; 70_reset_and_hazards.md R178). -/

namespace Sys2Proof.Proofs

open Sys2Proof.Machine Sys2Proof.Safety Sys2Proof.Laws

theorem takeCommand_of_decode (run : Instr → State → Host.Outcome State Fault Refusal) {s : State} {i : Instr}
    {rest : List Byte} (h : decode s.port = .instr i rest) : takeCommand run s = run i { s with port := rest } := by
  simp [takeCommand, h]

theorem step_of_decode {s : State} {i : Instr} {rest : List Byte} (hidle : s.pc = none)
    (h : decode s.port = .instr i rest) : step s = exec i { s with port := rest } := by
  rw [step_idle hidle, takeCommand_of_decode exec h]

theorem microStep_of_decode {s : State} {i : Instr} {rest : List Byte} (hidle : s.pc = none)
    (h : decode s.port = .instr i rest) : microStep s = issueInstr i { s with port := rest } := by
  rw [microStep_idle hidle, takeCommand_of_decode issueInstr h]

theorem issue_busy {s : State} {k : Nat} (p : Run → Run) (h : s.pc = some k) : issue p s = .refused .busy := by
  simp [issue, h]

/-- Advancing along the pending trace leaves the command port alone. -/
theorem advance_port {k : Nat} {s t : State} (h : advance k s = .next t) : t.port = s.port := by
  rcases advance_cases k s with ⟨slot, -, hadv⟩ | ⟨-, hadv⟩ | ⟨-, hadv⟩
  · rw [hadv] at h; cases h; rfl
  · rw [hadv] at h; cases h; rfl
  · rw [hadv] at h; cases h

/-- Settles O19: an idle step is `takeCommand exec`, at the decoded operation. -/
theorem stepRunsTheDecodedOperation : Obligations.StepRunsTheDecodedOperation :=
  fun _ _ _ hidle hdecode => step_of_decode hidle hdecode

/-- Settles O22: both forms of an operation are refused at a set position, and a busy step only advances. -/
theorem busyControllerAcceptsNothing : Obligations.BusyControllerAcceptsNothing := by
  refine ⟨fun i s k hbusy => ⟨?_, issue_busy (procedure i) hbusy⟩, fun s t k hbusy hstep => ?_⟩
  · rw [exec_eq_perform, perform_busy (procedure i) hbusy]
  · rw [step_busy hbusy] at hstep
    exact advance_port hstep

end Sys2Proof.Proofs
end

section
/-! The two round trips of the command port's byte form (spec/30_encoding.md R60 to R63, the spec's decision D1), and
with them the bytes of a table word. -/

namespace Sys2Proof.Proofs

open Sys2Proof.Machine Sys2Proof.Safety Sys2Proof.Laws

/-! ## From an operation to its bytes and back -/

/-- A 7-bit address in a byte leaves bit 7 clear, so it is no reserved operand (R69 (a)). -/
theorem decodeAddress_setWidth (addr : I2cAddr) (rest : List Byte) :
    decodeAddress (addr.setWidth 8 :: rest) = .instr (.setAddress addr) rest := by
  have hmsb : (addr.setWidth 8).msb = false := by simp [BitVec.msb_setWidth]
  have hback : (addr.setWidth 8).setWidth 7 = addr := by simp
  simp [decodeAddress, hmsb, hback]

/-- Decoding the bytes of a well-formed operation gives it back, whatever follows them. -/
theorem decode_encode {i : Instr} (hwf : i.wf = true) (rest : List Byte) :
    decode (encode i ++ rest) = .instr i rest := by
  cases i with
  | init => rfl
  | setAddress addr => exact decodeAddress_setWidth addr rest
  | clear => rfl
  | home => rfl
  | goto col row => rfl
  | putChar c => rfl
  | print text =>
    simp [encode, Instr.opcode, Instr.operandBytes, decode, decodePrint, takeText_of_wf text rest hwf]
  | printAt col row text =>
    simp [encode, Instr.opcode, Instr.operandBytes, decode, decodePrintAt, takeText_of_wf text rest hwf]
  | backlightOn => rfl
  | backlightOff => rfl

/-! ## From bytes to the operation they decode to and back -/

/-- The bytes are those of the well-formed operation `i`, and then `rest`. -/
def Encodes (bs : List Byte) (i : Instr) (rest : List Byte) : Prop := bs = encode i ++ rest ∧ i.wf = true

theorem encodes_of_decodeAddress {bs rest : List Byte} {i : Instr} (h : decodeAddress bs = .instr i rest) :
    Encodes (0x01 :: bs) i rest := by
  cases bs with
  | nil => cases h
  | cons b bs =>
    cases hmsb : b.msb with
    | true => simp [decodeAddress, hmsb] at h
    | false =>
      simp only [decodeAddress, hmsb, Bool.false_eq_true, if_false, Decoded.instr.injEq] at h
      obtain ⟨rfl, rfl⟩ := h
      have hlt : b.toNat < 128 := by simpa [BitVec.msb_eq_decide] using hmsb
      have hback : (b.setWidth 7).setWidth 8 = b := by bv_omega
      exact ⟨by simp [encode, Instr.opcode, Instr.operandBytes, hback], rfl⟩

theorem encodes_of_decodeGoto {bs rest : List Byte} {i : Instr} (h : decodeGoto bs = .instr i rest) :
    Encodes (0x04 :: bs) i rest := by
  match bs, h with
  | _ :: _ :: _, h => cases h; exact ⟨rfl, rfl⟩

theorem encodes_of_decodePutChar {bs rest : List Byte} {i : Instr} (h : decodePutChar bs = .instr i rest) :
    Encodes (0x05 :: bs) i rest := by
  match bs, h with
  | _ :: _, h => cases h; exact ⟨rfl, rfl⟩

theorem encodes_of_decodePrint {bs rest : List Byte} {i : Instr} (h : decodePrint bs = .instr i rest) :
    Encodes (0x06 :: bs) i rest := by
  cases htext : takeText bs with
  | none => simp [decodePrint, htext] at h
  | some split =>
    obtain ⟨text, after⟩ := split
    obtain ⟨hbs, hwf⟩ := takeText_some htext
    simp only [decodePrint, htext, Decoded.instr.injEq] at h
    obtain ⟨rfl, rfl⟩ := h
    exact ⟨by simp [hbs, encode, Instr.opcode, Instr.operandBytes], hwf⟩

theorem encodes_of_decodePrintAt {bs rest : List Byte} {i : Instr} (h : decodePrintAt bs = .instr i rest) :
    Encodes (0x07 :: bs) i rest := by
  match bs, h with
  | col :: row :: bs, h =>
    cases htext : takeText bs with
    | none => simp [decodePrintAt, htext] at h
    | some split =>
      obtain ⟨text, after⟩ := split
      obtain ⟨hbs, hwf⟩ := takeText_some htext
      simp only [decodePrintAt, htext, Decoded.instr.injEq] at h
      obtain ⟨rfl, rfl⟩ := h
      exact ⟨by simp [hbs, encode, Instr.opcode, Instr.operandBytes], hwf⟩

/-- What decodes to an operation is the encoding of that operation, which is well-formed. -/
theorem encodes_of_decode {bs rest : List Byte} {i : Instr} (h : decode bs = .instr i rest) : Encodes bs i rest := by
  cases bs with
  | nil => cases h
  | cons op bs =>
    have opcode_eq {n : Nat} (hop : op.toNat = n) : op = BitVec.ofNat 8 n := by simp [← hop]
    simp only [decode] at h
    split at h
    next hop => rw [opcode_eq hop]; cases h; exact ⟨rfl, rfl⟩
    next hop => rw [opcode_eq hop]; exact encodes_of_decodeAddress h
    next hop => rw [opcode_eq hop]; cases h; exact ⟨rfl, rfl⟩
    next hop => rw [opcode_eq hop]; cases h; exact ⟨rfl, rfl⟩
    next hop => rw [opcode_eq hop]; exact encodes_of_decodeGoto h
    next hop => rw [opcode_eq hop]; exact encodes_of_decodePutChar h
    next hop => rw [opcode_eq hop]; exact encodes_of_decodePrint h
    next hop => rw [opcode_eq hop]; exact encodes_of_decodePrintAt h
    next hop => rw [opcode_eq hop]; cases h; exact ⟨rfl, rfl⟩
    next hop => rw [opcode_eq hop]; cases h; exact ⟨rfl, rfl⟩
    next => cases h

/-! ## Table words -/

theorem decode_paddedBytes_of_tableWord {nbits w : Nat} {i : Instr} (h : decodeTableWord nbits w = some i) :
    ∃ rest, decode (paddedBytes nbits w) = .instr i rest := by
  cases hdecode : decode (paddedBytes nbits w) with
  | instr j rest =>
    simp only [decodeTableWord, hdecode, Option.some.injEq] at h
    exact ⟨rest, by rw [h]⟩
  | reservedOpcode op => simp [decodeTableWord, hdecode] at h
  | reservedOperand b => simp [decodeTableWord, hdecode] at h
  | incomplete => simp [decodeTableWord, hdecode] at h

/-- The command bytes of a table word the decoder reads are the encoding of what it reads: the padding past the command
is cut off again (log entry 5). -/
theorem tableBytes_eq_encode {nbits w : Nat} {i : Instr} (h : decodeTableWord nbits w = some i) :
    tableBytes nbits w = encode i ∧ i.wf = true := by
  obtain ⟨rest, hdecode⟩ := decode_paddedBytes_of_tableWord h
  obtain ⟨hpadded, hwf⟩ := encodes_of_decode hdecode
  refine ⟨?_, hwf⟩
  calc tableBytes nbits w
      = (paddedBytes nbits w).take ((paddedBytes nbits w).length - rest.length) := by simp [tableBytes, hdecode]
    _ = encode i := by simp [hpadded]

/-- Settles O20: the presented bytes are the operation's encoding, and decoding them leaves the port as it was. -/
theorem presentedWordRunsNext : Obligations.PresentedWordRunsNext := by
  intro s nbits w i hword
  obtain ⟨hbytes, hwf⟩ := tableBytes_eq_encode hword
  have hdecode : decode (s.withFetchWord nbits w).port = .instr i s.port := by
    rw [State.withFetchWord, presentBytes_port, hbytes, decode_encode hwf]
  exact step_of_decode rfl hdecode

end Sys2Proof.Proofs
end

section
/-! The same core on another bus primitive (spec/00_scope.md R6; 40_transport_nibble_byte.md R80, R163): two runs that
differ only in the bus primitive stay related through every piece of pseudocode. -/

namespace Sys2Proof.Proofs

open Sys2Proof.Machine Sys2Proof.Safety Sys2Proof.Laws

variable {transport : Config.Transport}

/-- `other` has the registers of `onI2c` and its trace with each transmission handed to `transport` instead. -/
structure Retargeted (transport : Config.Transport) (other onI2c : Run) : Prop where
  regs : other.regs = onI2c.regs
  events : other.events = retarget transport onI2c.events

/-- The pseudocode `p` on the other bus keeps step with `q` on I2C. -/
def Retargets (transport : Config.Transport) (p q : Run → Run) : Prop :=
  ∀ other onI2c, Retargeted transport other onI2c → Retargeted transport (p other) (q onI2c)

theorem retarget_i2cWrite (es : List Event) : retarget Config.i2cWrite es = es := by
  induction es with
  | nil => rfl
  | cons e es ih => cases e <;> simp [retarget, ih]

theorem retargeted_start (d : DisplayState) : Retargeted transport (Run.start d) (Run.start d) := ⟨rfl, rfl⟩

theorem Retargets.comp {p p' q q' : Run → Run} (hq : Retargets transport q q') (hp : Retargets transport p p') :
    Retargets transport (fun r => q (p r)) (fun r => q' (p' r)) :=
  fun _ _ h => hq _ _ (hp _ _ h)

/-! ## Register accesses and waits -/

theorem retargets_writeAddr (a : I2cAddr) : Retargets transport (writeAddr a) (writeAddr a) :=
  fun _ _ h => ⟨by simp [writeAddr, h.regs], h.events⟩

theorem retargets_writeBl (b : Bool) : Retargets transport (writeBl b) (writeBl b) :=
  fun _ _ h => ⟨by simp [writeBl, h.regs], h.events⟩

theorem retargets_writeRs (b : Bool) : Retargets transport (writeRs b) (writeRs b) :=
  fun _ _ h => ⟨by simp [writeRs, h.regs], h.events⟩

theorem retargets_wait (us : Nat) : Retargets transport (wait us) (wait us) :=
  fun _ _ h => ⟨h.regs, by simp [h.events, retarget]⟩

/-- Both runs read the same address, free draws included. -/
theorem Retargeted.readAddr {other onI2c : Run} (h : Retargeted transport other onI2c) :
    (readAddr other).1 = (readAddr onI2c).1 ∧ Retargeted transport (readAddr other).2 (readAddr onI2c).2 := by
  refine ⟨?_, ?_, by simp [h.events]⟩ <;>
    cases hw : onI2c.regs.addrWritten <;> simp [Machine.readAddr, h.regs, hw]

/-- Both runs read the same backlight bit, free draws included. -/
theorem Retargeted.readBl {other onI2c : Run} (h : Retargeted transport other onI2c) :
    (readBl other).1 = (readBl onI2c).1 ∧ Retargeted transport (readBl other).2 (readBl onI2c).2 := by
  refine ⟨?_, ?_, by simp [h.events]⟩ <;>
    cases hw : onI2c.regs.blWritten <;> simp [Machine.readBl, h.regs, hw]

/-! ## Micro-operations -/

/-- The one place where the two runs differ: the same byte goes to the same address over the other bus (R80). -/
theorem retargets_sendExpanderByte (v : Byte) :
    Retargets transport (sendExpanderByte transport v) (sendExpanderByte Config.i2cWrite v) := by
  intro other onI2c h
  obtain ⟨haddr, hrun⟩ := h.readAddr
  exact ⟨by simp [sendExpanderByte, hrun.regs], by simp [sendExpanderByte, haddr, h.events, retarget]⟩

theorem retargets_writeNibble (n : Byte) (rs bl : Bool) :
    Retargets transport (writeNibble transport n rs bl) (writeNibble Config.i2cWrite n rs bl) :=
  (retargets_wait tSettle).comp <| (retargets_sendExpanderByte (xbyte n rs bl false)).comp <|
    (retargets_wait tPw).comp <| (retargets_sendExpanderByte (xbyte n rs bl true)).comp
      (retargets_sendExpanderByte (xbyte n rs bl false))

theorem retargets_callNibble (n : Byte) (rs : Bool) :
    Retargets transport (callNibble transport n rs) (callNibble Config.i2cWrite n rs) := by
  intro other onI2c h
  obtain ⟨hbl, hrun⟩ := h.readBl
  simpa [callNibble, hbl] using retargets_writeNibble n rs (readBl onI2c).1 _ _ hrun

theorem retargets_sendIdleByte : Retargets transport (sendIdleByte transport) (sendIdleByte Config.i2cWrite) := by
  intro other onI2c h
  obtain ⟨hbl, hrun⟩ := h.readBl
  simpa only [sendIdleByte, hbl] using retargets_sendExpanderByte (0x00 ||| blBit (readBl onI2c).1) _ _ hrun

theorem retargets_writeByte (v : Byte) (isData : Bool) :
    Retargets transport (writeByte transport v isData) (writeByte Config.i2cWrite v isData) := by
  intro other onI2c h
  rw [writeByte_eq, writeByte_eq]
  exact retargets_callNibble _ _ _ _ (retargets_callNibble _ _ _ _ (retargets_writeRs isData _ _ h))

/-! ## Operations -/

theorem retargets_initPinsIdle : Retargets transport (initPinsIdle transport) (initPinsIdle Config.i2cWrite) :=
  (retargets_wait tPor).comp retargets_sendIdleByte

theorem retargets_initPulse (n : Byte) :
    Retargets transport (initPulse transport n) (initPulse Config.i2cWrite n) :=
  (retargets_wait tStep).comp (retargets_callNibble n false)

theorem retargets_initCommand (cmd : Byte) :
    Retargets transport (initCommand transport cmd) (initCommand Config.i2cWrite cmd) :=
  (retargets_wait tStep).comp (retargets_writeByte cmd false)

theorem retargets_initStateReset (cfg : Config.Params) :
    Retargets transport (initStateReset cfg) (initStateReset cfg) :=
  (retargets_writeRs false).comp <| (retargets_writeBl cfg.cfgBl).comp (retargets_writeAddr cfg.cfgAddr)

theorem retargets_initProcedure (cfg : Config.Params) :
    Retargets transport (initProcedure { cfg with transport := transport })
      (initProcedure { cfg with transport := Config.i2cWrite }) :=
  (retargets_initCommand cfg.cmdDisplayOn).comp <| (retargets_initCommand cfg.cmdEntryInc).comp <|
    (retargets_initCommand cmdClear).comp <| (retargets_initCommand cfg.cmdDisplayOn).comp <|
    (retargets_initCommand cfg.cmdFunctionSet).comp <| (retargets_initPulse fourBitNibble).comp <|
    (retargets_initPulse wakeNibble).comp <| (retargets_initPulse wakeNibble).comp <|
    (retargets_initPulse wakeNibble).comp <| retargets_initPinsIdle.comp (retargets_initStateReset cfg)

theorem retargets_printProcedure (text : List Byte) :
    Retargets transport (printProcedure transport text) (printProcedure Config.i2cWrite text) := by
  induction text with
  | nil => exact fun _ _ h => h
  | cons c text ih => exact ih.comp (retargets_writeByte c true)

theorem retargets_procedureWith (cfg : Config.Params) (i : Instr) :
    Retargets transport (procedureWith { cfg with transport := transport } i)
      (procedureWith { cfg with transport := Config.i2cWrite } i) := by
  cases i with
  | init => exact retargets_initProcedure cfg
  | setAddress addr => exact retargets_writeAddr addr
  | clear => exact (retargets_wait tClr).comp (retargets_writeByte cmdClear false)
  | home => exact (retargets_wait tClr).comp (retargets_writeByte cmdHome false)
  | goto col row => exact retargets_writeByte _ false
  | putChar c => exact retargets_writeByte c true
  | print text => exact retargets_printProcedure text
  | printAt col row text => exact (retargets_printProcedure text).comp (retargets_writeByte _ false)
  | backlightOn => exact retargets_sendIdleByte.comp (retargets_writeBl true)
  | backlightOff => exact retargets_sendIdleByte.comp (retargets_writeBl false)

/-- Settles O54: the two runs start related and every operation's pseudocode keeps them so. -/
theorem retargetedTransport : Obligations.RetargetedTransport := by
  refine ⟨params_transport, fun cfg transport i d => ?_, retarget_i2cWrite⟩
  obtain ⟨hregs, hevents⟩ := retargets_procedureWith cfg i _ _ (retargeted_start (transport := transport) d)
  exact ⟨hregs, hevents⟩

end Sys2Proof.Proofs
end

section
/-! The small-step form reaches the big step's state (spec/00_scope.md R10; 10_state.md R26). Register writes are
committed with the event that follows them (log entry 8), so the two forms agree because no operation that emits
anything writes a register after its last event. -/

namespace Sys2Proof.Proofs

open Sys2Proof.Machine Sys2Proof.Safety Sys2Proof.Laws

/-! ## No register is written after the last event -/

/-- The register file after these slots have been emitted from `d`: that of the last one. -/
def regsAfter (d : DisplayState) (slots : List Slot) : DisplayState := (slots.getLast?.map Slot.regs).getD d

@[simp] theorem regsAfter_nil (d : DisplayState) : regsAfter d [] = d := rfl

@[simp] theorem regsAfter_append_singleton (d : DisplayState) (slots : List Slot) (slot : Slot) :
    regsAfter d (slots ++ [slot]) = slot.regs := by
  simp [regsAfter]

/-- The registers of a run are those its last event was emitted with, if it has emitted any. -/
def Committed (r : Run) : Prop := regsAfter r.regs r.slots = r.regs

theorem committed_start (d : DisplayState) : Committed (Run.start d) := rfl

theorem committed_emit (e : Event) (r : Run) : Committed (emit e r) := by simp [Committed]

theorem committed_wait (us : Nat) (r : Run) : Committed (wait us r) := committed_emit (.wait us) r

theorem committed_sendIdleByte (r : Run) : Committed (sendIdleByte Config.i2cWrite r) := committed_emit _ _

theorem committed_writeByte (v : Byte) (isData : Bool) (r : Run) :
    Committed (writeByte Config.i2cWrite v isData r) := by
  rw [writeByte_eq]
  exact committed_wait tSettle _

theorem committed_printProcedure (text : List Byte) {r : Run} (h : Committed r) :
    Committed (printProcedure Config.i2cWrite text r) := by
  induction text generalizing r with
  | nil => exact h
  | cons c text ih => exact ih (committed_writeByte c true r)

/-- Every operation that emits anything writes its last register before its last event; `set_address` emits nothing. -/
theorem committed_procedure (i : Instr) (d : DisplayState) : Committed (procedure i (Run.start d)) := by
  cases i with
  | init => exact committed_wait tStep _
  | setAddress addr => rfl
  | clear => exact committed_wait tClr _
  | home => exact committed_wait tClr _
  | goto col row => exact committed_writeByte _ false _
  | putChar c => exact committed_writeByte c true _
  | print text => exact committed_printProcedure text (committed_start d)
  | printAt col row text => exact committed_printProcedure text (committed_writeByte _ false _)
  | backlightOn => exact committed_sendIdleByte _
  | backlightOff => exact committed_sendIdleByte _

/-! ## Small steps over a pending trace -/

theorem microRun_succ_of_next {n : Nat} {s u : State} (h : microRun n s = .next u) :
    microRun (n + 1) s = microStep u := by
  induction n generalizing s with
  | zero =>
    cases h
    cases hstep : microStep u <;> simp [microRun, hstep]
  | succ n ih =>
    cases hstep : microStep s with
    | next s' =>
      simp only [microRun, hstep] at h
      rw [microRun, hstep]
      exact ih h
    | fault f => simp [microRun, hstep] at h
    | refused r => simp [microRun, hstep] at h

/-- `s` with its pending trace emitted up to position `k`. -/
def emittedUpTo (k : Nat) (s : State) : State :=
  { s with regs := regsAfter s.regs (s.pending.take k)
           pc := some k
           trace := s.trace ++ (s.pending.take k).map Slot.event }

theorem microStep_emittedUpTo {k : Nat} {s : State} (hk : k < s.pending.length) :
    microStep (emittedUpTo k s) = .next (emittedUpTo (k + 1) s) := by
  have hslot : s.pending[k]? = some s.pending[k] := List.getElem?_eq_getElem hk
  have htake : s.pending.take (k + 1) = s.pending.take k ++ [s.pending[k]] := List.take_succ_eq_append_getElem hk
  rw [microStep_busy rfl, advance_emits (s := emittedUpTo k s) hslot]
  simp only [emittedUpTo, htake, regsAfter_append_singleton, List.map_append, List.map_cons, List.map_nil,
    List.append_assoc]

theorem microStep_emittedUpTo_length (s : State) :
    microStep (emittedUpTo s.pending.length s) =
      .next { emittedUpTo s.pending.length s with pc := none, pending := [] } :=
  (microStep_busy rfl).trans (advance_retires rfl)

/-- If one small step issues the trace of `u`, then `k` more stand at its position `k`. -/
theorem microRun_emittedUpTo {s u : State} (hissue : microStep s = .next u) (hpc : u.pc = some 0) {k : Nat}
    (hk : k ≤ u.pending.length) : microRun (k + 1) s = .next (emittedUpTo k u) := by
  induction k with
  | zero => simp [microRun, hissue, emittedUpTo, ← hpc]
  | succ k ih => rw [microRun_succ_of_next (ih (by omega)), microStep_emittedUpTo (by omega)]

/-! ## The two forms at the end of an operation -/

/-- The state `issue` leaves when the run `r` is the operation's. -/
def issued (r : Run) (s : State) : State :=
  { s with regs := if r.slots.isEmpty then r.regs else s.regs
           pending := r.slots
           pc := some 0 }

theorem issueInstr_idle (i : Instr) {s : State} (h : s.pc = none) :
    issueInstr i s = .next (issued (procedure i (Run.start s.regs)) s) :=
  issue_idle (procedure i) h

theorem regsAfter_issued {r : Run} (h : Committed r) (s : State) : regsAfter (issued r s).regs r.slots = r.regs := by
  cases hslots : r.slots.getLast? with
  | none =>
    have hnil : r.slots = [] := by simpa using hslots
    simp [issued, hnil]
  | some slot =>
    have hcommitted : slot.regs = r.regs := by simpa [Committed, regsAfter, hslots] using h
    simpa [regsAfter, hslots] using hcommitted

/-- Emitting all of an issued trace and retiring is the big step's effect on an idle, settled state. -/
theorem retired_issued {r : Run} (h : Committed r) {s : State} (hidle : s.pc = none) (hsettled : s.pending = []) :
    { emittedUpTo r.slots.length (issued r s) with pc := none, pending := [] } =
      { s with regs := r.regs, trace := s.trace ++ r.events } := by
  have hregs : regsAfter (issued r s).regs (r.slots.take r.slots.length) = r.regs := by
    rw [List.take_length, regsAfter_issued h]
  have htrace : (issued r s).trace ++ (r.slots.take r.slots.length).map Slot.event = s.trace ++ r.events := by
    rw [List.take_length]; rfl
  obtain ⟨regs, pc, pending, trace, port⟩ := s
  subst hidle hsettled
  exact congrArg₂ (fun d es => State.mk d none [] es port) hregs htrace

/-- Settles O53: position by position through the issued trace, whose last slot holds the big step's registers. -/
theorem smallStepsReachTheBigStep : Obligations.SmallStepsReachTheBigStep := by
  intro s t i rest hidle hsettled hdecode hstep
  let taken : State := { s with port := rest }
  let r := procedure i (Run.start s.regs)
  have hissue : microStep s = .next (issued r taken) := by
    rw [microStep_of_decode hidle hdecode, issueInstr_idle i (s := taken) hidle]
  have hlength : r.events.length = r.slots.length := by simp [Run.events]
  rw [step_of_decode hidle hdecode, exec_eq_perform] at hstep
  obtain ⟨-, rfl⟩ := perform_next hstep
  refine ⟨r.events, rfl, ?_, fun k hk => ⟨emittedUpTo k (issued r taken), ?_, rfl, ?_⟩⟩
  · calc microRun (r.events.length + 2) s
        = microStep (emittedUpTo r.slots.length (issued r taken)) := by
          rw [hlength]; exact microRun_succ_of_next (microRun_emittedUpTo hissue rfl le_rfl)
      _ = .next { emittedUpTo r.slots.length (issued r taken) with pc := none, pending := [] } :=
          microStep_emittedUpTo_length (issued r taken)
      _ = .next { taken with regs := r.regs, trace := s.trace ++ r.events } := by
          rw [retired_issued (committed_procedure i s.regs) (s := taken) hidle hsettled]
  · exact microRun_emittedUpTo hissue rfl (hlength ▸ hk)
  · simp [emittedUpTo, issued, taken, Run.events, List.map_take]

end Sys2Proof.Proofs
end

section
/-! What every operation's pseudocode is made of: the writes of `ADDR` and `BL` it opens with, and then nibbles, idle
bytes, waits and writes of `RS` (spec/00_scope.md R14, 40_transport_nibble_byte.md R82, R83). A claim about all
operations is then an induction over those pieces. -/

namespace Sys2Proof.Proofs

open Sys2Proof.Machine Sys2Proof.Safety Sys2Proof.Laws

/-! ## The pieces -/

/-- Pseudocode, on the I2C bus, that writes neither `ADDR` nor `BL`. -/
inductive Composed : (Run → Run) → Prop where
  | skip : Composed fun r => r
  | nibble (n : Byte) (rs : Bool) : Composed (callNibble Config.i2cWrite n rs)
  | idleByte : Composed (sendIdleByte Config.i2cWrite)
  | wait {us : Nat} (positive : 0 < us) : Composed (wait us)
  | writeRs (b : Bool) : Composed (writeRs b)
  | seq {p q : Run → Run} (hp : Composed p) (hq : Composed q) : Composed fun r => q (p r)

/-- The register writes that open an operation: every write of `ADDR` or `BL` it makes. -/
def prologue : Instr → Run → Run
  | .init => initStateReset Config.params
  | .setAddress addr => writeAddr addr
  | .clear => id
  | .home => id
  | .goto _ _ => id
  | .putChar _ => id
  | .print _ => id
  | .printAt _ _ _ => id
  | .backlightOn => writeBl true
  | .backlightOff => writeBl false

theorem composed_writeByte (v : Byte) (isData : Bool) : Composed (writeByte Config.i2cWrite v isData) := by
  rw [show writeByte Config.i2cWrite v isData = _ from funext (writeByte_eq Config.i2cWrite v isData)]
  exact .seq (.seq (.writeRs isData) (.nibble (hiNibble v) isData)) (.nibble (loNibble v) isData)

theorem composed_printProcedure (text : List Byte) : Composed (printProcedure Config.i2cWrite text) := by
  induction text with
  | nil => exact .skip
  | cons c text ih => exact ((composed_writeByte c true).seq ih :)

theorem composed_writeCommand_wait (cmd : Byte) {us : Nat} (positive : 0 < us) :
    Composed fun r => wait us (writeCommand Config.i2cWrite cmd r) :=
  ((composed_writeByte cmd false).seq (.wait positive) :)

/-- Steps 1 to 8 of `init`, after its state reset (spec/42_init_sequencer.md R112 to R119). -/
def initSteps (cfg : Config.Params) (r : Run) : Run :=
  let r := initPinsIdle Config.i2cWrite r
  let r := initPulse Config.i2cWrite wakeNibble r
  let r := initPulse Config.i2cWrite wakeNibble r
  let r := initPulse Config.i2cWrite wakeNibble r
  let r := initPulse Config.i2cWrite fourBitNibble r
  let r := initCommand Config.i2cWrite cfg.cmdFunctionSet r
  let r := initCommand Config.i2cWrite cfg.cmdDisplayOn r
  let r := initCommand Config.i2cWrite cmdClear r
  let r := initCommand Config.i2cWrite cfg.cmdEntryInc r
  initCommand Config.i2cWrite cfg.cmdDisplayOn r

theorem composed_initSteps (cfg : Config.Params) : Composed (initSteps cfg) := by
  have idle : Composed (initPinsIdle Config.i2cWrite) := (Composed.idleByte.seq (.wait (by decide : 0 < tPor)) :)
  have pulse (n : Byte) : Composed (initPulse Config.i2cWrite n) :=
    ((Composed.nibble n false).seq (.wait (by decide : 0 < tStep)) :)
  have command (cmd : Byte) : Composed (initCommand Config.i2cWrite cmd) :=
    composed_writeCommand_wait cmd (by decide : 0 < tStep)
  have steps := idle.seq (pulse wakeNibble) |>.seq (pulse wakeNibble) |>.seq (pulse wakeNibble)
    |>.seq (pulse fourBitNibble) |>.seq (command cfg.cmdFunctionSet) |>.seq (command cfg.cmdDisplayOn)
    |>.seq (command cmdClear) |>.seq (command cfg.cmdEntryInc) |>.seq (command cfg.cmdDisplayOn)
  exact steps

/-- After its opening register writes every operation is composed of the pieces. -/
theorem procedure_eq_prologue_then_composed (i : Instr) :
    ∃ body, Composed body ∧ ∀ r, procedure i r = body (prologue i r) := by
  cases i with
  | init => exact ⟨initSteps Config.params, composed_initSteps Config.params, fun _ => rfl⟩
  | setAddress addr => exact ⟨_, .skip, fun _ => rfl⟩
  | clear => exact ⟨_, composed_writeCommand_wait cmdClear (by decide : 0 < tClr), fun _ => rfl⟩
  | home => exact ⟨_, composed_writeCommand_wait cmdHome (by decide : 0 < tClr), fun _ => rfl⟩
  | goto col row => exact ⟨_, composed_writeByte (gotoCmd (coord col) (coord row)) false, fun _ => rfl⟩
  | putChar c => exact ⟨_, composed_writeByte c true, fun _ => rfl⟩
  | print text => exact ⟨_, composed_printProcedure text, fun _ => rfl⟩
  | printAt col row text =>
    exact ⟨_, .seq (composed_writeByte (gotoCmd (coord col) (coord row)) false) (composed_printProcedure text),
      fun _ => rfl⟩
  | backlightOn => exact ⟨_, .idleByte, fun _ => rfl⟩
  | backlightOff => exact ⟨_, .idleByte, fun _ => rfl⟩

/-- All that an operation carried out whole can do. -/
theorem exec_next {i : Instr} {s t : State} (h : exec i s = .next t) :
    s.pc = none ∧ t = { s with regs := (procedure i (Run.start s.regs)).regs,
                               trace := s.trace ++ (procedure i (Run.start s.regs)).events } :=
  perform_next (by rwa [← exec_eq_perform])

@[simp] theorem prologue_slots (i : Instr) (r : Run) : (prologue i r).slots = r.slots := by cases i <;> rfl

@[simp] theorem prologue_events (i : Instr) (r : Run) : (prologue i r).events = r.events := by cases i <;> rfl

/-! ## What the pieces emit, whether their registers are written or not -/

theorem writeNibble_events (n : Byte) (rs bl : Bool) (r : Run) :
    ∃ a b c, (writeNibble Config.i2cWrite n rs bl r).events = r.events ++
      [.tx a (xbyte n rs bl false), .tx b (xbyte n rs bl true), .wait tPw, .tx c (xbyte n rs bl false),
       .wait tSettle] :=
  ⟨_, _, _, by simp only [writeNibble, sendExpanderByte_i2cWrite, wait_events, emit_events, readAddr_events,
    List.append_assoc, List.cons_append, List.nil_append]; rfl⟩

theorem callNibble_events (n : Byte) (rs : Bool) (r : Run) :
    ∃ bl a b c, (callNibble Config.i2cWrite n rs r).events = r.events ++
      [.tx a (xbyte n rs bl false), .tx b (xbyte n rs bl true), .wait tPw, .tx c (xbyte n rs bl false),
       .wait tSettle] := by
  obtain ⟨a, b, c, h⟩ := writeNibble_events n rs (readBl r).1 (readBl r).2
  exact ⟨(readBl r).1, a, b, c, by rw [callNibble, h, readBl_events]⟩

theorem sendIdleByte_events (r : Run) :
    ∃ bl a, (sendIdleByte Config.i2cWrite r).events = r.events ++ [.tx a (blBit bl)] :=
  ⟨(readBl r).1, (readAddr (readBl r).2).1, by simp [sendIdleByte]⟩

/-! ## The bits of an expander byte (spec/30_encoding.md R64, R66) -/

theorem xbyte_bit1 (n : Byte) (rs bl e : Bool) : (xbyte n rs bl e).getLsbD 1 = false := by
  have hrs : (rsBit rs)[1] = false := by cases rs <;> rfl
  have hbl : (blBit bl)[1] = false := by cases bl <;> rfl
  cases e <;> simp [xbyte, dataByte, enableBit, hrs, hbl]

theorem hasEnable_xbyte (n : Byte) (rs bl e : Bool) : hasEnable (xbyte n rs bl e) = e := by
  have hrs : (rsBit rs)[2] = false := by cases rs <;> rfl
  have hbl : (blBit bl)[2] = false := by cases bl <;> rfl
  cases e <;> simp [hasEnable, xbyte, dataByte, enableBit, hrs, hbl]

/-- Clearing the enable bit of a strobed byte gives the byte sent before it (R82). -/
theorem xbyte_set_and_FB (n : Byte) (rs bl : Bool) : xbyte n rs bl true &&& 0xFB = xbyte n rs bl false := by
  have hrs : rsBit rs &&& 0xFB#8 = rsBit rs := by cases rs <;> rfl
  have hbl : blBit bl &&& 0xFB#8 = blBit bl := by cases bl <;> rfl
  simp [dataByte, BitVec.and_or_distrib_right, BitVec.and_assoc, hrs, hbl]

/-- Bit 3 of an expander byte is its backlight bit. -/
theorem xbyte_and_08 (n : Byte) (rs bl e : Bool) : xbyte n rs bl e &&& 0x08 = blBit bl := by
  have hrs : rsBit rs &&& 0x08#8 = 0#8 := by cases rs <;> rfl
  have hbl : blBit bl &&& 0x08#8 = blBit bl := by cases bl <;> rfl
  cases e <;> simp [dataByte, BitVec.and_or_distrib_right, BitVec.and_assoc, hrs, hbl]

end Sys2Proof.Proofs
end

section
/-! The strobe protocol over whole operations (spec/30_encoding.md R64, 40_transport_nibble_byte.md R82, 10_state.md
R28): every piece of pseudocode takes a trace that stands between nibbles to one that stands between nibbles. -/

namespace Sys2Proof.Proofs

open Sys2Proof.Machine Sys2Proof.Safety Sys2Proof.Laws

/-! ## The enable line at the end of a trace -/

@[simp] theorem txBytes_append (es fs : List Event) : txBytes (es ++ fs) = txBytes es ++ txBytes fs := by
  induction es with
  | nil => rfl
  | cons e es ih => cases e <;> simp [txBytes, ih]

/-- The enable line is low after the trace, or nothing has been transmitted. -/
def EnableClear (es : List Event) : Prop := ∀ v, standingByte es = some v → hasEnable v = false

theorem hasEnable_blBit (bl : Bool) : hasEnable (blBit bl) = false := by cases bl <;> rfl

theorem Composed.enableClear {p : Run → Run} (hp : Composed p) {r : Run} (h : EnableClear r.events) :
    EnableClear (p r).events := by
  induction hp generalizing r with
  | skip => exact h
  | nibble n rs =>
    obtain ⟨bl, _, _, _, hevents⟩ := callNibble_events n rs r
    intro v hv
    have hlast : xbyte n rs bl false = v := by
      simpa [hevents, standingByte, txBytes, List.getLast?_append] using hv
    rw [← hlast, hasEnable_xbyte]
  | idleByte =>
    obtain ⟨bl, _, hevents⟩ := sendIdleByte_events r
    intro v hv
    have hlast : blBit bl = v := by simpa [hevents, standingByte, txBytes] using hv
    rw [← hlast, hasEnable_blBit]
  | wait _ => simpa [EnableClear, standingByte, txBytes] using h
  | writeRs _ => exact h
  | seq _ _ ihp ihq => exact ihq (ihp h)

/-- Settles O31: an operation starts with nothing transmitted, and every piece leaves enable clear. -/
theorem lastByteHasEnableClear : Obligations.LastByteHasEnableClear := by
  intro i s t hexec
  obtain ⟨body, hbody, hproc⟩ := procedure_eq_prologue_then_composed i
  obtain ⟨-, rfl⟩ := exec_next hexec
  refine ⟨_, rfl, ?_⟩
  rw [hproc]
  exact hbody.enableClear (by simp [EnableClear, standingByte, txBytes])

/-! ## The phases of the protocol -/

theorem keepsProtocol_iff (es : List Event) :
    keepsProtocol es = true ↔ ∃ last, phaseAfter (.ready none) es = .ready last := by
  unfold keepsProtocol
  cases phaseAfter (.ready none) es <;> simp

theorem next_ready_tx_clear {last : Option Byte} {a : I2cAddr} {v : Byte} (hbit1 : v.getLsbD 1 = false)
    (henable : hasEnable v = false) : (Phase.ready last).next (.tx a v) = .ready (some v) := by
  simp only [Phase.next, hbit1, henable, Bool.false_eq_true, if_false]

theorem next_ready_tx_set {a : I2cAddr} {v b : Byte} (hbit1 : v.getLsbD 1 = false) (henable : hasEnable v = true)
    (hb : v &&& 0xFB = b) : (Phase.ready (some b)).next (.tx a v) = .strobed b := by
  subst hb
  simp only [Phase.next, hbit1, henable, Bool.false_eq_true, if_false, if_true]

/-- The five events of a nibble, whatever its bits and wherever it is sent, lead back between nibbles (R82). -/
theorem phaseAfter_nibble (last : Option Byte) (n : Byte) (rs bl : Bool) (a b c : I2cAddr) :
    phaseAfter (.ready last)
      [.tx a (xbyte n rs bl false), .tx b (xbyte n rs bl true), .wait tPw, .tx c (xbyte n rs bl false),
       .wait tSettle] = .ready none := by
  have hclear : (Phase.ready last).next (.tx a (xbyte n rs bl false)) = .ready (some (xbyte n rs bl false)) :=
    next_ready_tx_clear (xbyte_bit1 n rs bl false) (hasEnable_xbyte n rs bl false)
  have hset : (Phase.ready (some (xbyte n rs bl false))).next (.tx b (xbyte n rs bl true)) =
      .strobed (xbyte n rs bl false) :=
    next_ready_tx_set (xbyte_bit1 n rs bl true) (hasEnable_xbyte n rs bl true) (xbyte_set_and_FB n rs bl)
  simp only [phaseAfter_cons, hclear, hset]
  simp [Phase.next, tPw, tSettle]

theorem next_ready_idleByte (last : Option Byte) (a : I2cAddr) (bl : Bool) :
    (Phase.ready last).next (.tx a (blBit bl)) = .ready (some (blBit bl)) :=
  next_ready_tx_clear (by cases bl <;> rfl) (hasEnable_blBit bl)

/-- The trace `es`, continued by the events of the run, stands between nibbles. -/
def BetweenNibbles (es : List Event) (r : Run) : Prop :=
  ∃ last, phaseAfter (.ready none) (es ++ r.events) = .ready last

theorem Composed.betweenNibbles {p : Run → Run} (hp : Composed p) {es : List Event} {r : Run}
    (h : BetweenNibbles es r) : BetweenNibbles es (p r) := by
  induction hp generalizing r with
  | skip => exact h
  | nibble n rs =>
    obtain ⟨last, hready⟩ := h
    obtain ⟨bl, a, b, c, hevents⟩ := callNibble_events n rs r
    exact ⟨none, by rw [hevents, ← List.append_assoc, phaseAfter_append, hready, phaseAfter_nibble]⟩
  | idleByte =>
    obtain ⟨last, hready⟩ := h
    obtain ⟨bl, a, hevents⟩ := sendIdleByte_events r
    exact ⟨some (blBit bl), by
      rw [hevents, ← List.append_assoc, phaseAfter_append, hready, phaseAfter_cons, next_ready_idleByte,
        phaseAfter_nil]⟩
  | wait positive =>
    obtain ⟨last, hready⟩ := h
    exact ⟨none, by
      rw [wait_events, ← List.append_assoc, phaseAfter_append, hready]
      simp [Phase.next, positive]⟩
  | writeRs _ => exact h
  | seq _ _ ihp ihq => exact ihq (ihp h)

/-- A whole operation after a trace that keeps the protocol keeps it. -/
theorem keepsProtocol_append_procedure {es : List Event} (h : keepsProtocol es = true) (i : Instr) (d : DisplayState) :
    keepsProtocol (es ++ (procedure i (Run.start d)).events) = true := by
  obtain ⟨body, hbody, hproc⟩ := procedure_eq_prologue_then_composed i
  rw [keepsProtocol_iff] at h
  rw [keepsProtocol_iff, hproc]
  exact hbody.betweenNibbles (by simpa [BetweenNibbles] using h)

/-! ## The invariant -/

theorem remaining_idle {s : State} (h : s.pc = none) : remaining s = [] := by simp [remaining, h]

theorem remaining_busy {s : State} {k : Nat} (h : s.pc = some k) :
    remaining s = (s.pending.drop k).map Slot.event := by
  simp [remaining, h]

/-- Emitting the event at the position moves it from what remains to the trace. -/
theorem remaining_of_getElem? {s : State} {k : Nat} {slot : Slot} (hpc : s.pc = some k)
    (hslot : s.pending[k]? = some slot) :
    remaining s = slot.event :: (s.pending.drop (k + 1)).map Slot.event := by
  obtain ⟨hk, rfl⟩ := List.getElem?_eq_some_iff.mp hslot
  rw [remaining_busy hpc, List.drop_eq_getElem_cons hk, List.map_cons]

/-- For an idle state the invariant is that nothing is pending and the trace keeps the protocol. -/
theorem invariant_idle_iff {s : State} (hidle : s.pc = none) :
    Invariant s ↔ s.pending = [] ∧ keepsProtocol s.trace = true := by
  constructor
  · intro h
    exact ⟨h.settled hidle, by simpa [remaining_idle hidle] using h.protocol⟩
  · rintro ⟨hsettled, hprotocol⟩
    exact ⟨by simp [hidle], fun _ => hsettled, by simpa [remaining_idle hidle] using hprotocol⟩

/-- The bytes on the command port are no part of the invariant. -/
theorem invariant_withPort {s : State} (h : Invariant s) (port : List Byte) : Invariant { s with port := port } :=
  ⟨h.position, h.settled, h.protocol⟩

theorem exec_keeps_invariant {i : Instr} {s t : State} (h : Invariant s) (hexec : exec i s = .next t) :
    Invariant t := by
  obtain ⟨hidle, rfl⟩ := exec_next hexec
  obtain ⟨hsettled, hprotocol⟩ := (invariant_idle_iff hidle).mp h
  refine (invariant_idle_iff ?_).mpr ⟨hsettled, keepsProtocol_append_procedure hprotocol i s.regs⟩
  exact hidle

theorem issueInstr_keeps_invariant {i : Instr} {s t : State} (h : Invariant s) (hidle : s.pc = none)
    (hissue : issueInstr i s = .next t) : Invariant t := by
  obtain ⟨-, hprotocol⟩ := (invariant_idle_iff hidle).mp h
  rw [issueInstr_idle i hidle] at hissue
  cases hissue
  refine ⟨?_, nofun, keepsProtocol_append_procedure hprotocol i s.regs⟩
  rintro k hpc
  cases hpc
  exact Nat.zero_le _

theorem advance_keeps_invariant {k : Nat} {s t : State} (h : Invariant s) (hpc : s.pc = some k)
    (hadvance : advance k s = .next t) : Invariant t := by
  rcases advance_cases k s with ⟨slot, hslot, hemit⟩ | ⟨hk, hretire⟩ | ⟨-, hfault⟩
  · obtain ⟨hlt, -⟩ := List.getElem?_eq_some_iff.mp hslot
    rw [hemit] at hadvance
    cases hadvance
    refine ⟨?_, nofun, ?_⟩
    · rintro _ ⟨⟩
      exact hlt
    · have hprotocol := h.protocol
      rw [remaining_of_getElem? hpc hslot] at hprotocol
      simpa [remaining] using hprotocol
  · rw [hretire] at hadvance
    cases hadvance
    have hnothing : remaining s = [] := by simp [remaining_busy hpc, hk]
    exact (invariant_idle_iff rfl).mpr ⟨rfl, by simpa [hnothing] using h.protocol⟩
  · rw [hfault] at hadvance
    cases hadvance

/-- Taking a command keeps the invariant if carrying out the command does. -/
theorem takeCommand_keeps_invariant {run : Instr → State → Host.Outcome State Fault Refusal} {s t : State}
    (h : Invariant s) (hrun : ∀ i rest, run i { s with port := rest } = .next t → Invariant t)
    (htake : takeCommand run s = .next t) : Invariant t := by
  rcases takeCommand_cases run s with ⟨i, rest, -, hwhole⟩ | ⟨_, hreserved⟩ | ⟨_, hreserved⟩ | hwait
  · exact hrun i rest (hwhole ▸ htake)
  · rw [hreserved] at htake; cases htake
  · rw [hreserved] at htake; cases htake
  · rw [hwait] at htake; cases htake; exact h

/-- Settles O49: nothing is pending and nothing has been emitted. -/
theorem invariantAtPowerOn : Obligations.InvariantAtPowerOn := (invariant_idle_iff rfl).mpr ⟨rfl, rfl⟩

/-- Settles O50: an idle step is a whole operation, whose trace keeps the protocol; a busy step advances. -/
theorem stepKeepsTheInvariant : Obligations.StepKeepsTheInvariant := by
  intro s t h hstep
  cases hpc : s.pc with
  | none =>
    rw [step_idle hpc] at hstep
    exact takeCommand_keeps_invariant h (fun _ rest => exec_keeps_invariant (invariant_withPort h rest)) hstep
  | some k =>
    rw [step_busy hpc] at hstep
    exact advance_keeps_invariant h hpc hstep

/-- Settles O51: an issued trace is the whole operation's, still to be emitted; advancing is as in the big-step form. -/
theorem smallStepKeepsTheInvariant : Obligations.SmallStepKeepsTheInvariant := by
  intro s t h hstep
  cases hpc : s.pc with
  | none =>
    rw [microStep_idle hpc] at hstep
    exact takeCommand_keeps_invariant h (fun _ rest => issueInstr_keeps_invariant (invariant_withPort h rest) hpc) hstep
  | some k =>
    rw [microStep_busy hpc] at hstep
    exact advance_keeps_invariant h hpc hstep

end Sys2Proof.Proofs
end

section
/-! The registers over whole operations (spec/10_state.md R20 to R23, R29, R30; 40_transport_nibble_byte.md R81): after
its opening writes no operation changes `ADDR` or `BL`, and each of its transmissions carries them. -/

namespace Sys2Proof.Proofs

open Sys2Proof.Machine Sys2Proof.Safety Sys2Proof.Laws

/-! ## `ADDR` and `BL` stay after the opening writes -/

/-- From `d` to `e` nothing happened to `ADDR` and `BL`; `RS` may have been written, free values drawn where needed. -/
structure KeepsBus (d e : DisplayState) : Prop where
  addr : e.addr = d.addr
  bl : e.bl = d.bl
  addrWritten : e.addrWritten = d.addrWritten
  blWritten : e.blWritten = d.blWritten
  rsWritten : d.rsWritten = true → e.rsWritten = true
  draws : d.addrWritten = true → d.blWritten = true → e.draws = d.draws

theorem KeepsBus.refl (d : DisplayState) : KeepsBus d d := ⟨rfl, rfl, rfl, rfl, id, fun _ _ => rfl⟩

theorem KeepsBus.trans {d e f : DisplayState} (h : KeepsBus d e) (h' : KeepsBus e f) : KeepsBus d f where
  addr := h'.addr.trans h.addr
  bl := h'.bl.trans h.bl
  addrWritten := h'.addrWritten.trans h.addrWritten
  blWritten := h'.blWritten.trans h.blWritten
  rsWritten := h'.rsWritten ∘ h.rsWritten
  draws ha hb := (h'.draws (h.addrWritten.trans ha) (h.blWritten.trans hb)).trans (h.draws ha hb)

theorem keepsBus_readAddr (r : Run) : KeepsBus r.regs (readAddr r).2.regs := by
  cases ha : r.regs.addrWritten with
  | true => rw [readAddr_written ha]; exact .refl _
  | false => rw [readAddr_unwritten ha]; exact ⟨rfl, rfl, rfl, rfl, id, by simp [ha]⟩

theorem keepsBus_readBl (r : Run) : KeepsBus r.regs (readBl r).2.regs := by
  cases hb : r.regs.blWritten with
  | true => rw [readBl_written hb]; exact .refl _
  | false => rw [readBl_unwritten hb]; exact ⟨rfl, rfl, rfl, rfl, id, by simp [hb]⟩

theorem keepsBus_writeRs (b : Bool) (r : Run) : KeepsBus r.regs (writeRs b r).regs :=
  ⟨rfl, rfl, rfl, rfl, fun _ => rfl, fun _ _ => rfl⟩

/-! ## Every transmission carries them -/

/-- A transmission goes to `ADDR` and its bit 3 is `BL`, as the slot's register file holds them. -/
def CarriesRegisters (slot : Slot) : Prop :=
  ∀ a v, slot.event = .tx a v →
    (slot.regs.addrWritten = true → a = slot.regs.addr) ∧
    (slot.regs.blWritten = true → v &&& 0x08 = blBit slot.regs.bl)

/-- Since the register file was `d`, `ADDR` and `BL` have stayed, and every event of the run carries them. -/
structure Carries (d : DisplayState) (r : Run) : Prop where
  regs : KeepsBus d r.regs
  slots : ∀ slot ∈ r.slots, CarriesRegisters slot ∧ KeepsBus d slot.regs

section Carries

variable {d : DisplayState} {r : Run}

theorem carries_of_slots_nil (h : r.slots = []) : Carries r.regs r := ⟨.refl _, by simp [h]⟩

theorem Carries.emit {e : Event} (h : Carries d r) (he : CarriesRegisters ⟨r.regs, e⟩) : Carries d (emit e r) where
  regs := h.regs
  slots slot hslot := by
    rw [emit_slots, List.mem_append, List.mem_singleton] at hslot
    rcases hslot with hold | rfl
    · exact h.slots slot hold
    · exact ⟨he, h.regs⟩

theorem Carries.wait (h : Carries d r) (us : Nat) : Carries d (wait us r) := Carries.emit h nofun

theorem Carries.readAddr (h : Carries d r) : Carries d (readAddr r).2 :=
  ⟨h.regs.trans (keepsBus_readAddr r), by simpa using h.slots⟩

theorem Carries.readBl (h : Carries d r) : Carries d (readBl r).2 :=
  ⟨h.regs.trans (keepsBus_readBl r), by simpa using h.slots⟩

theorem readAddr_eq_of_written (r : Run) (h : (readAddr r).2.regs.addrWritten = true) :
    (readAddr r).1 = (readAddr r).2.regs.addr := by
  rw [(keepsBus_readAddr r).addrWritten] at h
  rw [readAddr_written h]

theorem Carries.readBl_eq (h : Carries d r) (hb : d.blWritten = true) : (Machine.readBl r).1 = d.bl := by
  rw [readBl_written (h.regs.blWritten.trans hb)]
  exact h.regs.bl

theorem Carries.sendExpanderByte {v : Byte} (h : Carries d r) (hv : d.blWritten = true → v &&& 0x08 = blBit d.bl) :
    Carries d (sendExpanderByte Config.i2cWrite v r) := by
  have hread := h.readAddr
  refine hread.emit ?_
  rintro a w ⟨⟩
  refine ⟨readAddr_eq_of_written r, fun hb => ?_⟩
  rw [hread.regs.blWritten] at hb
  rw [hread.regs.bl]
  exact hv hb

theorem Carries.writeNibble {n : Byte} {rs bl : Bool} (h : Carries d r) (hbl : d.blWritten = true → bl = d.bl) :
    Carries d (writeNibble Config.i2cWrite n rs bl r) := by
  have hbyte (e : Bool) (hb : d.blWritten = true) : xbyte n rs bl e &&& 0x08 = blBit d.bl := by
    rw [xbyte_and_08, hbl hb]
  have hstrobe := (h.sendExpanderByte (hbyte false)).sendExpanderByte (hbyte true)
  exact ((hstrobe.wait tPw).sendExpanderByte (hbyte false)).wait tSettle

theorem Composed.carries {p : Run → Run} (hp : Composed p) (h : Carries d r) : Carries d (p r) := by
  induction hp generalizing r with
  | skip => exact h
  | nibble n rs => exact h.readBl.writeNibble h.readBl_eq
  | idleByte =>
    refine h.readBl.sendExpanderByte fun hb => ?_
    rw [h.readBl_eq hb]
    cases d.bl <;> rfl
  | wait _ => exact h.wait _
  | writeRs b => exact ⟨h.regs.trans (keepsBus_writeRs b r), h.slots⟩
  | seq _ _ ihp ihq => exact ihq (ihp h)

end Carries

/-- The register file after an operation's opening writes. -/
def openingRegs (i : Instr) (d : DisplayState) : DisplayState := (prologue i (Run.start d)).regs

theorem carries_procedure (i : Instr) (d : DisplayState) :
    Carries (openingRegs i d) (procedure i (Run.start d)) := by
  obtain ⟨body, hbody, hproc⟩ := procedure_eq_prologue_then_composed i
  rw [hproc]
  exact hbody.carries (carries_of_slots_nil (prologue_slots i _))

theorem exec_keepsBus {i : Instr} {s t : State} (hexec : exec i s = .next t) :
    KeepsBus (openingRegs i s.regs) t.regs := by
  obtain ⟨-, rfl⟩ := exec_next hexec
  exact (carries_procedure i s.regs).regs

/-! ## The opening writes -/

theorem openingRegs_keeps_written (i : Instr) (d : DisplayState) :
    (d.addrWritten = true → (openingRegs i d).addrWritten = true) ∧
    (d.blWritten = true → (openingRegs i d).blWritten = true) ∧
    (d.rsWritten = true → (openingRegs i d).rsWritten = true) := by
  cases i <;> simp +contextual [openingRegs, prologue, initStateReset]

/-- The state reset of `init` (spec/42_init_sequencer.md R111). -/
theorem openingRegs_init (d : DisplayState) :
    (openingRegs .init d).addrWritten = true ∧ (openingRegs .init d).blWritten = true ∧
    (openingRegs .init d).rsWritten = true ∧ (openingRegs .init d).addr = Config.params.cfgAddr ∧
    (openingRegs .init d).bl = Config.params.cfgBl := ⟨rfl, rfl, rfl, rfl, rfl⟩

theorem openingRegs_draws (i : Instr) (d : DisplayState) : (openingRegs i d).draws = d.draws := by cases i <;> rfl

theorem openingRegs_addr {i : Instr} (hinit : i ≠ .init) (hset : ∀ a, i ≠ .setAddress a) (d : DisplayState) :
    (openingRegs i d).addr = d.addr ∧ (openingRegs i d).addrWritten = d.addrWritten := by
  cases i with
  | init => exact absurd rfl hinit
  | setAddress a => exact absurd rfl (hset a)
  | _ => exact ⟨rfl, rfl⟩

/-- `BL` is written by `init` and the two backlight operations alone (R21, R137). -/
theorem openingRegs_bl (i : Instr) (d : DisplayState) :
    (openingRegs i d).bl = (if i = .init then Config.params.cfgBl else if i = .backlightOn then true
      else if i = .backlightOff then false else d.bl) ∧
    ((openingRegs i d).blWritten = true ↔
      i = .init ∨ i = .backlightOn ∨ i = .backlightOff ∨ d.blWritten = true) := by
  cases i <;> simp [openingRegs, prologue, initStateReset]

/-! ## `RS` -/

/-- The operations that write no `RS` (R23). -/
theorem procedure_keeps_rs {i : Instr}
    (h : (∃ a, i = .setAddress a) ∨ i = .backlightOn ∨ i = .backlightOff ∨ i = .print []) (d : DisplayState) :
    (procedure i (Run.start d)).regs.rs = d.rs ∧ (procedure i (Run.start d)).regs.rsWritten = d.rsWritten := by
  have hidleByte (b : Bool) : (sendIdleByte Config.i2cWrite (writeBl b (Run.start d))).regs.rs = d.rs ∧
      (sendIdleByte Config.i2cWrite (writeBl b (Run.start d))).regs.rsWritten = d.rsWritten := by
    obtain ⟨m, hregs⟩ := sendIdleByte_regs Config.i2cWrite (writeBl b (Run.start d))
    rw [hregs]
    exact ⟨rfl, rfl⟩
  rcases h with ⟨a, rfl⟩ | rfl | rfl | rfl
  · exact ⟨rfl, rfl⟩
  · exact hidleByte true
  · exact hidleByte false
  · exact ⟨rfl, rfl⟩

/-- Settles O4: the opening writes clear no written bit, and after them `ADDR` and `BL` stay. -/
theorem writtenRegistersStayWritten : Obligations.WrittenRegistersStayWritten := by
  intro i s t hexec
  have hkept := exec_keepsBus hexec
  have hidle : idle t := by
    obtain ⟨hpc, rfl⟩ := exec_next hexec
    exact hpc
  obtain ⟨haddrStays, hblStays, hrsStays⟩ := openingRegs_keeps_written i s.regs
  refine ⟨hidle, fun h => hkept.addrWritten.trans (haddrStays h), fun h => hkept.blWritten.trans (hblStays h),
    fun h => hkept.rsWritten (hrsStays h), ?_, ?_, ?_⟩
  · rintro rfl
    obtain ⟨haddrWritten, hblWritten, hrsWritten, haddr, hbl⟩ := openingRegs_init s.regs
    exact ⟨hkept.addrWritten.trans haddrWritten, hkept.blWritten.trans hblWritten, hkept.rsWritten hrsWritten,
      hkept.addr.trans haddr, hkept.bl.trans hbl⟩
  · rintro rfl
    exact ⟨hkept.blWritten, hkept.bl⟩
  · rintro rfl
    exact ⟨hkept.blWritten, hkept.bl⟩

/-- Settles O44: what the opening writes leave alone stays, and `perform` touches only the registers and the trace. -/
theorem frameOfOperations : Obligations.FrameOfOperations := by
  intro i s t hexec
  have hkept := exec_keepsBus hexec
  obtain ⟨-, rfl⟩ := exec_next hexec
  obtain ⟨haddrWritten, hblWritten, -⟩ := openingRegs_keeps_written i s.regs
  refine ⟨fun hinit hset => ?_, fun hinit hon hoff => ?_, fun h => procedure_keeps_rs h s.regs, ?_, ?_,
    List.prefix_append _ _, rfl, rfl, rfl⟩
  · obtain ⟨haddr, hwritten⟩ := openingRegs_addr hinit hset s.regs
    exact ⟨hkept.addr.trans haddr, hkept.addrWritten.trans hwritten⟩
  · obtain ⟨hbl, hwritten⟩ := openingRegs_bl i s.regs
    simp only [hinit, hon, hoff, if_false, false_or] at hbl hwritten
    exact ⟨hkept.bl.trans hbl, hkept.blWritten.trans (Bool.eq_iff_iff.mpr hwritten)⟩
  · rintro ⟨ha, hb⟩
    exact (hkept.draws (haddrWritten ha) (hblWritten hb)).trans (openingRegs_draws i s.regs)
  · rintro (⟨a, rfl⟩ | rfl) <;> exact List.append_nil _

/-- Settles O45: every event's register file still holds what the opening writes left in `ADDR` and `BL`. -/
theorem transmissionsCarryRegisters : Obligations.TransmissionsCarryRegisters := by
  intro i s t hexec
  obtain ⟨-, rfl⟩ := exec_next hexec
  refine ⟨rfl, fun slot hslot => ?_⟩
  obtain ⟨hcarries, hkept⟩ := (carries_procedure i s.regs).slots slot hslot
  obtain ⟨hbl, hwritten⟩ := openingRegs_bl i s.regs
  exact ⟨hcarries, hkept.bl.trans hbl, by rw [hkept.blWritten, hwritten]⟩

end Sys2Proof.Proofs
end

section
/-! No trace depends on `RS` or on the value of an unwritten register (spec/10_state.md R22, R29;
40_transport_nibble_byte.md R88): two runs whose registers no transmission can tell apart stay so through every
piece. -/

namespace Sys2Proof.Proofs

open Sys2Proof.Machine Sys2Proof.Safety Sys2Proof.Laws

/-- The two runs have emitted the same, and their registers let the same be emitted next. -/
structure SameOnBus (r r' : Run) : Prop where
  regs : SameForBus r.regs r'.regs
  events : r.events = r'.events

section SameOnBus

variable {r r' : Run}

theorem sameForBus_countDraw (h : SameForBus r.regs r'.regs) : SameForBus (countDraw r).regs (countDraw r').regs :=
  ⟨h.addrWritten, h.blWritten, h.addr, h.bl, congrArg (· + 1) h.draws⟩

/-- Both runs read the same address: the register's, or the same free draw. -/
theorem SameOnBus.readAddr (h : SameOnBus r r') :
    (readAddr r).1 = (readAddr r').1 ∧ SameOnBus (readAddr r).2 (readAddr r').2 := by
  have hwritten := h.regs.addrWritten
  cases hw : r.regs.addrWritten with
  | true =>
    rw [readAddr_written hw, readAddr_written (hwritten ▸ hw)]
    exact ⟨h.regs.addr hw, h⟩
  | false =>
    rw [readAddr_unwritten hw, readAddr_unwritten (hwritten ▸ hw)]
    exact ⟨congrArg Config.freeAddr h.regs.draws, sameForBus_countDraw h.regs, h.events⟩

/-- Both runs read the same backlight bit. -/
theorem SameOnBus.readBl (h : SameOnBus r r') :
    (readBl r).1 = (readBl r').1 ∧ SameOnBus (readBl r).2 (readBl r').2 := by
  have hwritten := h.regs.blWritten
  cases hw : r.regs.blWritten with
  | true =>
    rw [readBl_written hw, readBl_written (hwritten ▸ hw)]
    exact ⟨h.regs.bl hw, h⟩
  | false =>
    rw [readBl_unwritten hw, readBl_unwritten (hwritten ▸ hw)]
    exact ⟨congrArg Config.freeBl h.regs.draws, sameForBus_countDraw h.regs, h.events⟩

theorem SameOnBus.wait (h : SameOnBus r r') (us : Nat) : SameOnBus (wait us r) (wait us r') :=
  ⟨h.regs, by rw [wait_events, wait_events, h.events]⟩

theorem SameOnBus.sendExpanderByte (h : SameOnBus r r') (v : Byte) :
    SameOnBus (sendExpanderByte Config.i2cWrite v r) (sendExpanderByte Config.i2cWrite v r') := by
  obtain ⟨haddr, hrun⟩ := h.readAddr
  exact ⟨hrun.regs, by simp [haddr, h.events]⟩

theorem SameOnBus.writeNibble (h : SameOnBus r r') (n : Byte) (rs bl : Bool) :
    SameOnBus (writeNibble Config.i2cWrite n rs bl r) (writeNibble Config.i2cWrite n rs bl r') :=
  ((((h.sendExpanderByte _).sendExpanderByte _).wait tPw).sendExpanderByte _).wait tSettle

theorem Composed.sameOnBus {p : Run → Run} (hp : Composed p) (h : SameOnBus r r') : SameOnBus (p r) (p r') := by
  induction hp generalizing r r' with
  | skip => exact h
  | nibble n rs =>
    obtain ⟨hbl, hrun⟩ := h.readBl
    simpa only [callNibble, hbl] using hrun.writeNibble n rs (readBl r').1
  | idleByte =>
    obtain ⟨hbl, hrun⟩ := h.readBl
    simpa only [sendIdleByte, hbl] using hrun.sendExpanderByte (0x00 ||| blBit (readBl r').1)
  | wait _ => exact h.wait _
  | writeRs _ => exact ⟨⟨h.regs.addrWritten, h.regs.blWritten, h.regs.addr, h.regs.bl, h.regs.draws⟩, h.events⟩
  | seq _ _ ihp ihq => exact ihq (ihp h)

end SameOnBus

theorem sameOnBus_prologue (i : Instr) {d e : DisplayState} (h : SameForBus d e) :
    SameOnBus (prologue i (Run.start d)) (prologue i (Run.start e)) := by
  obtain ⟨haddrWritten, hblWritten, haddr, hbl, hdraws⟩ := h
  refine ⟨?_, by simp⟩
  cases i with
  | init => exact ⟨rfl, rfl, fun _ => rfl, fun _ => rfl, hdraws⟩
  | setAddress addr => exact ⟨rfl, hblWritten, fun _ => rfl, hbl, hdraws⟩
  | backlightOn => exact ⟨haddrWritten, rfl, haddr, fun _ => rfl, hdraws⟩
  | backlightOff => exact ⟨haddrWritten, rfl, haddr, fun _ => rfl, hdraws⟩
  | _ => exact ⟨haddrWritten, hblWritten, haddr, hbl, hdraws⟩

theorem sameOnBus_procedure (i : Instr) {d e : DisplayState} (h : SameForBus d e) :
    SameOnBus (procedure i (Run.start d)) (procedure i (Run.start e)) := by
  obtain ⟨body, hbody, hproc⟩ := procedure_eq_prologue_then_composed i
  rw [hproc, hproc]
  exact hbody.sameOnBus (sameOnBus_prologue i h)

/-- Settles O3: the pseudocode of every operation keeps the two register files apart by nothing a transmission shows. -/
theorem traceIgnoresRsAndUnwrittenValues : Obligations.TraceIgnoresRsAndUnwrittenValues := by
  intro i s s' t _ hidle' hsame hexec
  obtain ⟨-, rfl⟩ := exec_next hexec
  obtain ⟨hregs, hevents⟩ := sameOnBus_procedure i hsame
  refine ⟨_, _, by rw [exec_eq_perform, perform_idle (procedure i) hidle'], rfl, ?_, hregs⟩
  rw [hevents]

end Sys2Proof.Proofs
end

section
/-! Power-on, waiting, and the three moves of the small-step form (spec/10_state.md R26, R29, R31). -/

namespace Sys2Proof.Proofs

open Sys2Proof.Machine Sys2Proof.Safety Sys2Proof.Laws

theorem step_eq_microStep_of_busy {s : State} {k : Nat} (hpc : s.pc = some k) : step s = microStep s := by
  rw [step_busy hpc, microStep_busy hpc]

/-- Settles O1: read off the reset state. -/
theorem powerOnNothingWritten : Obligations.PowerOnNothingWritten := ⟨rfl, rfl, rfl, rfl, rfl, rfl, rfl⟩

/-- Settles O21: an empty port holds no whole command, so the controller waits. -/
theorem idleControllerWaits : Obligations.IdleControllerWaits := by
  rintro s ⟨hidle, hport⟩
  have hincomplete : decode s.port = .incomplete := by rw [hport]; rfl
  rw [step_idle hidle, takeCommand, hincomplete]

/-- Settles O52: `issue` runs the pseudocode the big step runs, and a busy step is `advance` in both forms. -/
theorem issueStepRetire : Obligations.IssueStepRetire := by
  refine ⟨fun i s t hexec => ?_, fun s k slot hpc hslot => ?_, fun s k hpc hk => ?_⟩
  · obtain ⟨hidle, rfl⟩ := exec_next hexec
    exact ⟨_, issueInstr_idle i hidle, rfl, rfl, rfl, rfl⟩
  · exact ⟨(microStep_busy hpc).trans (advance_emits hslot), step_eq_microStep_of_busy hpc⟩
  · exact ⟨(microStep_busy hpc).trans (advance_retires hk), step_eq_microStep_of_busy hpc⟩

end Sys2Proof.Proofs
end

section
/-! The trace is append-only (spec/20_memory.md R47, R51). -/

namespace Sys2Proof.Proofs

open Sys2Proof.Machine Sys2Proof.Safety Sys2Proof.Laws

/-- All that taking a command can do where it answers a state: carry out what the port decodes to, or wait. -/
theorem takeCommand_next {run : Instr → State → Host.Outcome State Fault Refusal} {s t : State}
    (h : takeCommand run s = .next t) :
    (∃ i rest, decode s.port = .instr i rest ∧ run i { s with port := rest } = .next t) ∨ t = s := by
  rcases takeCommand_cases run s with ⟨i, rest, hdecode, hwhole⟩ | ⟨_, hreserved⟩ | ⟨_, hreserved⟩ | hwait
  · exact .inl ⟨i, rest, hdecode, hwhole ▸ h⟩
  · rw [hreserved] at h; cases h
  · rw [hreserved] at h; cases h
  · rw [hwait] at h; cases h; exact .inr rfl

theorem exec_trace_prefix {i : Instr} {s t : State} (h : exec i s = .next t) : s.trace <+: t.trace := by
  obtain ⟨-, rfl⟩ := exec_next h
  exact List.prefix_append _ _

/-- Advancing emits one event or, where it retires the operation, none. -/
theorem advance_trace_prefix {k : Nat} {s t : State} (h : advance k s = .next t) : s.trace <+: t.trace := by
  rcases advance_cases k s with ⟨slot, -, hemit⟩ | ⟨-, hretire⟩ | ⟨-, hfault⟩
  · rw [hemit] at h; cases h; exact List.prefix_append _ _
  · rw [hretire] at h; cases h; exact List.prefix_rfl
  · rw [hfault] at h; cases h

/-- Settles O23: an idle step appends a whole operation's events or waits; a busy step advances. -/
theorem traceOnlyGrows : Obligations.TraceOnlyGrows := by
  intro s t hstep
  cases hpc : s.pc with
  | none =>
    rw [step_idle hpc] at hstep
    rcases takeCommand_next hstep with ⟨i, rest, -, hexec⟩ | rfl
    · exact exec_trace_prefix (s := { s with port := rest }) hexec
    · exact List.prefix_rfl
  | some k =>
    rw [step_busy hpc] at hstep
    exact advance_trace_prefix hstep

end Sys2Proof.Proofs
end

section
/-! The command port's byte form (spec/30_encoding.md R60 to R63, R69): the two round trips, commands cut short, and the
operands. -/

namespace Sys2Proof.Proofs

open Sys2Proof.Machine Sys2Proof.Safety Sys2Proof.Laws

/-- Settles O13: constructor by constructor, a text scanned up to its terminator. -/
theorem decodeOfEncode : Obligations.DecodeOfEncode := fun _ rest hwf => decode_encode hwf rest

/-- Settles O14: each arm of the decoder reads back exactly the bytes of its operation. -/
theorem decodedBytesAreTheEncoding : Obligations.DecodedBytesAreTheEncoding :=
  fun _ _ _ hdecode => encodes_of_decode hdecode

/-! ## Commands cut short (R69 (c)) -/

/-- What is cut off a command includes its last byte. -/
theorem proper_prefix_of_encode {bs : List Byte} {i : Instr} (hprefix : bs <+: encode i) (hne : bs ≠ encode i) :
    bs <+: (encode i).dropLast := by
  have hsplit : (encode i).dropLast ++ [(encode i).getLast (List.cons_ne_nil _ _)] = encode i :=
    List.dropLast_append_getLast (List.cons_ne_nil _ _)
  rw [← hsplit, List.prefix_concat_iff, hsplit] at hprefix
  exact hprefix.resolve_left hne

theorem dropLast_encode_print (text : List Byte) : (encode (.print text)).dropLast = 0x06 :: text :=
  List.dropLast_concat (l₁ := 0x06 :: text)

theorem dropLast_encode_printAt (col row : Byte) (text : List Byte) :
    (encode (.printAt col row text)).dropLast = 0x07 :: col :: row :: text :=
  List.dropLast_concat (l₁ := 0x07 :: col :: row :: text)

theorem textWf_of_prefix {text cut : List Byte} (hwf : textWf text = true) (hcut : cut <+: text) :
    textWf cut = true :=
  List.all_eq_true.mpr fun c hc => List.all_eq_true.mp hwf c (hcut.subset hc)

theorem decodePrintAt_of_cut {col row : Byte} {bs text : List Byte} (hwf : textWf text = true)
    (hcut : bs <+: col :: row :: text) : decodePrintAt bs = .incomplete := by
  match bs, hcut with
  | [], _ => rfl
  | [_], _ => rfl
  | _ :: _ :: cut, hcut =>
    have htext : cut <+: text := by simp only [List.cons_prefix_cons] at hcut; exact hcut.2.2
    simp [decodePrintAt, takeText_none (textWf_of_prefix hwf htext)]

/-- A command cut short is not a command: the decoder is short of an operand or of the terminator. -/
theorem decode_of_proper_prefix {bs : List Byte} {i : Instr} (hwf : i.wf = true) (hprefix : bs <+: encode i)
    (hne : bs ≠ encode i) : decode bs = .incomplete := by
  have hcut := proper_prefix_of_encode hprefix hne
  cases bs with
  | nil => rfl
  | cons op bs =>
    cases i with
    | init | clear | home | backlightOn | backlightOff => simp [encode, Instr.operandBytes] at hcut
    | setAddress _ | putChar _ =>
      obtain ⟨rfl, rfl⟩ : op = _ ∧ bs = [] := by simpa [encode, Instr.operandBytes, Instr.opcode] using hcut
      rfl
    | goto col row =>
      obtain ⟨rfl, hbs⟩ : op = 0x04 ∧ bs <+: [col] := by
        simpa [encode, Instr.operandBytes, Instr.opcode] using hcut
      match bs, hbs with
      | [], _ => rfl
      | [_], _ => rfl
    | print text =>
      obtain ⟨rfl, htext⟩ : op = 0x06 ∧ bs <+: text := by
        rwa [dropLast_encode_print, List.cons_prefix_cons] at hcut
      simp [decode, decodePrint, takeText_none (textWf_of_prefix hwf htext)]
    | printAt col row text =>
      obtain ⟨rfl, hbs⟩ : op = 0x07 ∧ bs <+: col :: row :: text := by
        rwa [dropLast_encode_printAt, List.cons_prefix_cons] at hcut
      exact decodePrintAt_of_cut hwf hbs

theorem step_of_incomplete {s : State} (hidle : s.pc = none) (h : decode s.port = .incomplete) : step s = .next s := by
  simp [step_idle hidle, takeCommand, h]

/-- Settles O15: a cut command decodes to `incomplete`, on which an idle step waits. -/
theorem incompleteCommandsWait : Obligations.IncompleteCommandsWait := by
  intro i bs hwf hprefix hne
  have hincomplete := decode_of_proper_prefix hwf hprefix hne
  exact ⟨hincomplete, fun s hidle hport => step_of_incomplete hidle (by rw [hport, hincomplete])⟩

/-! ## Operands (R69) -/

theorem textWf_iff (text : List Byte) : textWf text = true ↔ 0x00 ∉ text := by
  simp [textWf, ← List.forall_mem_ne']

theorem decode_setAddress_reserved {b : Byte} (hbit7 : b.getLsbD 7 = true) (bs : List Byte) :
    decode (0x01 :: b :: bs) = .reservedOperand b := by
  have hmsb : b.msb = true := by rw [BitVec.msb_eq_getLsbD_last]; exact hbit7
  simp [decode, decodeAddress, hmsb]

/-- Settles O17: a decoded text is well-formed by the round trip, and the other operands are read as they stand. -/
theorem operandEncodings : Obligations.OperandEncodings := by
  refine ⟨fun s b bs hidle hport hbit7 => ?_, fun bs rest text hdecode => ?_, fun bs rest text col row hdecode => ?_,
    fun _ => rfl, fun i bs => decode_of_proper_prefix, fun _ _ _ _ => ⟨rfl, rfl⟩⟩
  · rw [step_idle hidle, takeCommand, hport, decode_setAddress_reserved hbit7]
  · obtain ⟨-, hwf⟩ := encodes_of_decode hdecode
    exact (textWf_iff text).mp hwf
  · obtain ⟨-, hwf⟩ := encodes_of_decode hdecode
    exact (textWf_iff text).mp hwf

end Sys2Proof.Proofs
end

section
/-! How the values the block sends are assembled (spec/30_encoding.md R64 to R67, R73). -/

namespace Sys2Proof.Proofs

open Sys2Proof.Machine Sys2Proof.Safety Sys2Proof.Laws

/-! ## Nibbles and expander bytes (R64 to R66) -/

/-- Bits 7:4 of a byte do not depend on whether its bits 3:0 are cleared. -/
theorem highNibble_and_F0 (v : Byte) : (v &&& 0xF0).extractLsb' 4 4 = v.extractLsb' 4 4 := by
  have hmask : (0xF0#8).extractLsb' 4 4 = BitVec.allOnes 4 := rfl
  rw [BitVec.extractLsb'_and, BitVec.ofNat_eq_ofNat, hmask, BitVec.and_allOnes]

theorem and_F0_and_0F (v : Byte) : (v &&& 0xF0) &&& 0x0F = 0 := by simp [BitVec.and_assoc]

theorem highNibble_shiftLeft (v : Byte) : (v <<< 4).extractLsb' 4 4 = v.extractLsb' 0 4 := by
  ext k hk
  have hlow : k < 8 := by omega
  have hhigh : 4 + k < 8 := by omega
  simp [hhigh, BitVec.getLsbD_eq_getElem hlow]

/-- Settles O5: the mask 0xF0 keeps the high nibble and clears the low one. -/
theorem nibblesOfByte : Obligations.NibblesOfByte := by
  refine ⟨fun v => ⟨rfl, rfl, and_F0_and_0F v, and_F0_and_0F (v <<< 4), highNibble_and_F0 v, ?_⟩, rfl, rfl, rfl, rfl⟩
  calc (loNibble v).extractLsb' 4 4 = (v <<< 4).extractLsb' 4 4 := highNibble_and_F0 (v <<< 4)
    _ = v.extractLsb' 0 4 := highNibble_shiftLeft v

/-- The bits below the nibble: register-select, backlight and enable. -/
def controlBits (rs bl e : Bool) : Byte := rsBit rs ||| blBit bl ||| (if e then enableBit else 0x00)

theorem xbyte_eq (n : Byte) (rs bl e : Bool) : xbyte n rs bl e = (n &&& 0xF0) ||| controlBits rs bl e := by
  simp [xbyte, dataByte, controlBits, BitVec.or_assoc]

theorem controlBits_eq_add :
    ∀ rs bl e, controlBits rs bl e = rsBit rs + blBit bl + (if e then enableBit else 0x00) := by decide

theorem controlBits_mem :
    ∀ rs bl e, controlBits rs bl e ∈ ([0x0, 0x1, 0x4, 0x5, 0x8, 0x9, 0xC, 0xD] : List Byte) := by decide

theorem controlBits_and_0F : ∀ rs bl e, controlBits rs bl e &&& 0x0F = controlBits rs bl e := by decide

theorem highNibble_controlBits : ∀ rs bl e, (controlBits rs bl e).extractLsb' 4 4 = 0 := by decide

theorem controlBits_bit0 : ∀ rs bl e, (controlBits rs bl e)[0] = rs := by decide

theorem controlBits_bit3 : ∀ rs bl e, (controlBits rs bl e)[3] = bl := by decide

theorem xbyte_eq_add (n : Byte) (rs bl e : Bool) :
    xbyte n rs bl e = (n &&& 0xF0) + rsBit rs + blBit bl + (if e then enableBit else 0x00) := by
  have hdisjoint : (n &&& 0xF0) &&& controlBits rs bl e = 0 := by
    rw [← controlBits_and_0F, BitVec.and_comm (controlBits rs bl e), ← BitVec.and_assoc, and_F0_and_0F]
    simp
  calc xbyte n rs bl e = (n &&& 0xF0) ||| controlBits rs bl e := xbyte_eq n rs bl e
    _ = (n &&& 0xF0) + controlBits rs bl e := (BitVec.add_eq_or_of_and_eq_zero _ _ hdisjoint).symm
    _ = _ := by rw [controlBits_eq_add, ← BitVec.add_assoc, ← BitVec.add_assoc]

/-- Settles O6: the formulas are the definitions, and disjoint fields add up to their union. -/
theorem expanderByteComposition : Obligations.ExpanderByteComposition :=
  ⟨fun n rs bl e => ⟨rfl, rfl, rfl, xbyte_eq_add n rs bl e⟩, rfl, rfl, rfl⟩

theorem xbyte_and_0F (n : Byte) (rs bl e : Bool) : xbyte n rs bl e &&& 0x0F = controlBits rs bl e := by
  rw [xbyte_eq, BitVec.and_or_distrib_right, and_F0_and_0F, controlBits_and_0F]
  simp

theorem highNibble_xbyte (n : Byte) (rs bl e : Bool) : (xbyte n rs bl e).extractLsb' 4 4 = n.extractLsb' 4 4 := by
  rw [xbyte_eq, BitVec.extractLsb'_or, highNibble_and_F0, highNibble_controlBits]
  simp

theorem xbyte_bit0 (n : Byte) (rs bl e : Bool) : (xbyte n rs bl e).getLsbD 0 = rs := by
  simp [xbyte_eq, controlBits_bit0]

theorem xbyte_bit3 (n : Byte) (rs bl e : Bool) : (xbyte n rs bl e).getLsbD 3 = bl := by
  simp [xbyte_eq, controlBits_bit3]

/-- The pins-idle byte is an expander byte without nibble, register-select and enable. -/
theorem blBit_eq_xbyte (bl : Bool) : blBit bl = xbyte 0x00 false bl false := by cases bl <;> rfl

/-! ## Every transmitted byte is an expander byte (R64) -/

/-- Every transmitted byte is composed, as R66 says, of some nibble and control bits. -/
def TransmitsExpanderBytes (es : List Event) : Prop := ∀ v ∈ txBytes es, ∃ n rs bl e, v = xbyte n rs bl e

theorem TransmitsExpanderBytes.append {es fs : List Event} (h : TransmitsExpanderBytes es)
    (h' : TransmitsExpanderBytes fs) : TransmitsExpanderBytes (es ++ fs) := by
  intro v hv
  rw [txBytes_append, List.mem_append] at hv
  exact hv.elim (h v) (h' v)

theorem Composed.transmitsExpanderBytes {p : Run → Run} (hp : Composed p) {r : Run}
    (h : TransmitsExpanderBytes r.events) : TransmitsExpanderBytes (p r).events := by
  induction hp generalizing r with
  | skip => exact h
  | nibble n rs =>
    obtain ⟨bl, _, _, _, hevents⟩ := callNibble_events n rs r
    rw [hevents]
    refine h.append fun v hv => ?_
    simp only [txBytes, List.mem_cons, List.not_mem_nil, or_false] at hv
    obtain rfl | rfl | rfl := hv
    · exact ⟨n, rs, bl, false, rfl⟩
    · exact ⟨n, rs, bl, true, rfl⟩
    · exact ⟨n, rs, bl, false, rfl⟩
  | idleByte =>
    obtain ⟨bl, _, hevents⟩ := sendIdleByte_events r
    rw [hevents]
    refine h.append fun v hv => ?_
    obtain rfl : v = blBit bl := by simpa [txBytes] using hv
    exact ⟨0x00, false, bl, false, blBit_eq_xbyte bl⟩
  | wait _ => rw [wait_events]; exact h.append nofun
  | writeRs _ => exact h
  | seq _ _ ihp ihq => exact ihq (ihp h)

/-- Settles O7: every piece of an operation's pseudocode transmits expander bytes, whose fields R66 lays out. -/
theorem transmittedBytesHaveTheLayout : Obligations.TransmittedBytesHaveTheLayout := by
  intro i s t hexec
  obtain ⟨body, hbody, hproc⟩ := procedure_eq_prologue_then_composed i
  obtain ⟨-, rfl⟩ := exec_next hexec
  refine ⟨_, rfl, fun v hv => ?_⟩
  rw [hproc] at hv
  have hstart : TransmitsExpanderBytes (prologue i (Run.start s.regs)).events := by
    rw [prologue_events]; exact nofun
  obtain ⟨n, rs, bl, e, rfl⟩ := hbody.transmitsExpanderBytes hstart v hv
  refine ⟨xbyte_bit1 n rs bl e, ?_, n, rs, bl, e, rfl, highNibble_xbyte n rs bl e, xbyte_bit3 n rs bl e,
    hasEnable_xbyte n rs bl e, xbyte_bit0 n rs bl e⟩
  rw [xbyte_and_0F]
  exact controlBits_mem rs bl e

/-! ## The cursor command byte (R67) -/

theorem gotoCmd_toNat (col row : Int) : ((gotoCmd col row).toNat : Int) = (rowBase row + max col 1 - 1) % 256 := by
  simp only [gotoCmd, BitVec.toNat_ofInt]
  omega

/-- Settles O8: the sum modulo 256; up to column 44 it stays below 256 even from the base 0xD4. -/
theorem cursorCommandByte : Obligations.CursorCommandByte := by
  refine ⟨gotoCmd_toNat, fun col row _ _ hcol => (gotoCmd_toNat col row).trans ?_⟩
  have hbase : 0x80 ≤ rowBase row ∧ rowBase row ≤ 0xD4 := by unfold rowBase; split_ifs <;> decide
  exact Int.emod_eq_of_lt (by omega) (by omega)

end Sys2Proof.Proofs
end

section
/-! The bytes of a transaction on the wire (spec/30_encoding.md R73). -/

namespace Sys2Proof.Proofs.Wire

open Sys2Proof.Machine

theorem wireAddress_toNat (a : I2cAddr) : (wireAddress a).toNat = 2 * a.toNat := by
  simp only [wireAddress]
  bv_omega

/-- Settles O12: the 7-bit address shifted left by one stays within a byte, and bit 0 is clear. -/
theorem wireBytes : Obligations.WireBytes :=
  ⟨fun a _ => ⟨rfl, wireAddress_toNat a, by simp [wireAddress]⟩, rfl⟩

end Sys2Proof.Proofs.Wire
end

section
/-! Operations defined as expansions of others (spec/30_encoding.md R71). -/

namespace Sys2Proof.Proofs

open Sys2Proof.Machine Sys2Proof.Safety Sys2Proof.Laws

/-- Carrying out two pieces of pseudocode as one operation is carrying out one and then the other: the second only
appends to the trace and reads nothing of it. -/
theorem perform_seq {p q : Run → Run} (hq : Appends q) (s : State) :
    perform (fun r => q (p r)) s = andThen (perform p s) (perform q) := by
  cases hpc : s.pc with
  | some k => simp [perform_busy _ hpc, andThen]
  | none =>
    have happend := hq (p (Run.start s.regs))
    simp only [perform_idle _ hpc, andThen, happend]
    simp [perform_idle, hpc, Run.events]

/-- Settles O46: each expansion is its pseudocode, and `print` only appends to what came before it. -/
theorem expansionsAgree : Obligations.ExpansionsAgree := by
  have then_print {p : Run → Run} (text : List Byte) (s : State) :=
    perform_seq (p := p) (appends_printProcedure Config.params.transport text) s
  exact ⟨fun _ _ _ => ⟨rfl, rfl⟩, fun _ _ => rfl, fun _ => then_print, fun _ _ => then_print⟩

end Sys2Proof.Proofs
end

section
/-! The micro-operations (spec/40_transport_nibble_byte.md R82 to R86): the events of a nibble and of a byte
while their registers are written, and the bits of the six bytes of `write_byte`. -/

namespace Sys2Proof.Proofs

open Sys2Proof.Machine Sys2Proof.Safety Sys2Proof.Laws

/-! ## Events of runs with the bus registers written -/

/-- The events of `r`, and then those emitted with the register file `e`. -/
theorem events_append_slots (d e : DisplayState) (r : Run) (es : List Event) :
    Run.events ⟨d, r.slots ++ es.map (Slot.mk e)⟩ = r.events ++ es := by
  simp [Run.events, Function.comp_def]

theorem writeNibble_events_written {r : Run} (n : Byte) (rs bl : Bool) (ha : r.regs.addrWritten = true) :
    (writeNibble Config.i2cWrite n rs bl r).events = r.events ++ nibbleTrace r.regs.addr n rs bl := by
  rw [writeNibble_written n rs bl ha, events_append_slots]

theorem writeByte_events_written {r : Run} (v : Byte) (isData : Bool) (ha : r.regs.addrWritten = true)
    (hb : r.regs.blWritten = true) :
    (writeByte Config.i2cWrite v isData r).events = r.events ++ byteTrace r.regs.addr v isData r.regs.bl := by
  rw [writeByte_written v isData ha hb, events_append_slots]

/-- Bits 3:0 of a nibble operand are discarded (R66, R82). -/
theorem xbyte_mask (n : Byte) (rs bl e : Bool) : xbyte (n &&& 0xF0) rs bl e = xbyte n rs bl e := by
  simp [xbyte_eq, BitVec.and_assoc]

theorem writeNibble_mask (transport : Config.Transport) (n : Byte) (rs bl : Bool) :
    writeNibble transport (n &&& 0xF0) rs bl = writeNibble transport n rs bl := by
  funext r
  simp only [writeNibble, xbyte_mask]

/-- Settles O26: the trace of R82 from the written registers, and each byte composed of the masked nibble. -/
theorem nibbleEvents : Obligations.NibbleEvents := by
  refine ⟨fun n rs bl r ha => ⟨writeNibble_events_written n rs bl ha, ?_⟩, fun transport n rs bl r => ?_,
    rfl, rfl, rfl⟩
  · rw [writeNibble_written n rs bl ha]
  · rw [writeNibble_mask]

/-- Settles O27: `RS` is written first, and then two nibbles leave the registers alone. -/
theorem byteEvents : Obligations.ByteEvents := by
  refine ⟨fun v isData r ha hb => ⟨writeByte_events_written v isData ha hb, ?_⟩, fun a v isData bl => ⟨rfl, rfl⟩,
    rfl, rfl⟩
  rw [writeByte_written v isData ha hb]; rfl

/-! ## The six bytes of `write_byte` (R86) -/

theorem txBytes_nibbleTrace (a : I2cAddr) (n : Byte) (rs bl : Bool) :
    txBytes (nibbleTrace a n rs bl) = [xbyte n rs bl false, xbyte n rs bl true, xbyte n rs bl false] := by
  simp [nibbleTrace, txBytes, dataByte, rsBit, blBit]

theorem txBytes_byteTrace (a : I2cAddr) (v : Byte) (isData bl : Bool) :
    txBytes (byteTrace a v isData bl) =
      [xbyte (hiNibble v) isData bl false, xbyte (hiNibble v) isData bl true, xbyte (hiNibble v) isData bl false,
       xbyte (loNibble v) isData bl false, xbyte (loNibble v) isData bl true, xbyte (loNibble v) isData bl false] := by
  rw [byteTrace, txBytes_append, txBytes_nibbleTrace, txBytes_nibbleTrace]; rfl

theorem controlBits_and_F0 : ∀ rs bl e, controlBits rs bl e &&& 0xF0 = 0 := by decide

/-- The top nibble of an expander byte is that of its operand. -/
theorem xbyte_and_F0 (n : Byte) (rs bl e : Bool) : xbyte n rs bl e &&& 0xF0 = n &&& 0xF0 := by
  rw [xbyte_eq, BitVec.and_or_distrib_right, controlBits_and_F0]
  simp [BitVec.and_assoc]

theorem xbyte_hiNibble_and_F0 (v : Byte) (rs bl e : Bool) : xbyte (hiNibble v) rs bl e &&& 0xF0 = hiNibble v := by
  rw [xbyte_and_F0]
  simp [hiNibble, BitVec.and_assoc]

theorem xbyte_loNibble_and_F0 (v : Byte) (rs bl e : Bool) : xbyte (loNibble v) rs bl e &&& 0xF0 = loNibble v := by
  rw [xbyte_and_F0]
  simp [loNibble, BitVec.and_assoc]

/-- The two nibbles of a byte, read back from bits 7:4 of what carries them (R86 (d)). -/
theorem hiNibble_or_loNibble_ushiftRight (v : Byte) : hiNibble v ||| (loNibble v >>> 4) = v := by
  ext k hk
  interval_cases k <;> simp [hiNibble, loNibble]

/-- Settles O28: the six bytes are expander bytes, whose low and top nibbles are those of R66. -/
theorem byteStreamProperties : Obligations.ByteStreamProperties := by
  intro v rs d ha hb
  have hbytes : txBytes (writeByte Config.i2cWrite v rs (Run.start d)).events = _ :=
    (congrArg txBytes (writeByte_events_written (r := Run.start d) v rs ha hb)).trans
      (txBytes_byteTrace d.addr v rs d.bl)
  have hclear (n : Byte) : xbyte n rs d.bl false &&& 0x0F = (if rs then 0x01 else 0x00) ||| blBit d.bl := by
    rw [xbyte_and_0F]; simp [controlBits, rsBit]
  have hset (n : Byte) : xbyte n rs d.bl true &&& 0x0F = (if rs then 0x01 else 0x00) ||| blBit d.bl ||| 0x04 := by
    rw [xbyte_and_0F]; rfl
  have hhi := xbyte_hiNibble_and_F0 v rs d.bl
  have hlo := xbyte_loNibble_and_F0 v rs d.bl
  have hback := congrArg₂ (fun hi lo : Byte => hi ||| lo >>> 4) (hhi true) (hlo true)
  exact ⟨_, _, _, _, _, _, hbytes, ⟨hclear _, hclear _, hclear _, hclear _, hset _, hset _⟩,
    ⟨hhi _, hhi _, hhi _⟩, ⟨hlo _, hlo _, hlo _⟩,
    (hback.trans (hiNibble_or_loNibble_ushiftRight v)).symm⟩

end Sys2Proof.Proofs
end

section
/-! A transmission with `ADDR` written (spec/40_transport_nibble_byte.md R80). -/

namespace Sys2Proof.Proofs.Transmission

open Sys2Proof.Machine Sys2Proof.Safety Sys2Proof.Laws

/-- Settles O25: with `ADDR` written nothing is drawn, and the byte is emitted as it is. -/
theorem sendExpanderByte : Obligations.SendExpanderByte := by
  refine ⟨fun v r ha => ?_, rfl⟩
  rw [sendExpanderByte_written v ha]
  exact ⟨events_append_slots r.regs r.regs r [.tx r.regs.addr v], rfl⟩

end Sys2Proof.Proofs.Transmission
end

section
/-! The nibbles the display latches (spec/40_transport_nibble_byte.md R87): every piece of pseudocode leaves enable clear,
so the latched nibbles of a run are those of its pieces one after the other, at the rising edge as at the falling one. -/

namespace Sys2Proof.Proofs

open Sys2Proof.Machine Sys2Proof.Safety Sys2Proof.Laws

/-! ## Latching across the end of a trace -/

/-- The enable line after the bytes, if it stood at `prev` before them. -/
def enableAfter (prev : Bool) (vs : List Byte) : Bool := (vs.getLast?.map hasEnable).getD prev

@[simp] theorem enableAfter_nil (prev : Bool) : enableAfter prev [] = prev := rfl

@[simp] theorem enableAfter_cons (prev : Bool) (v : Byte) (vs : List Byte) :
    enableAfter prev (v :: vs) = enableAfter (hasEnable v) vs := by
  cases h : vs.getLast? <;> simp [enableAfter, List.getLast?_cons, h]

theorem EnableClear.enableAfter {es : List Event} (h : EnableClear es) : enableAfter false (txBytes es) = false := by
  cases hlast : (txBytes es).getLast? with
  | none => simp [Proofs.enableAfter, hlast]
  | some v => simpa [Proofs.enableAfter, hlast] using h v hlast

theorem latchedFrom_append (prev : Bool) (vs ws : List Byte) :
    latchedFrom prev (vs ++ ws) = latchedFrom prev vs ++ latchedFrom (enableAfter prev vs) ws := by
  induction vs generalizing prev with
  | nil => rfl
  | cons v vs ih => simp only [List.cons_append, latchedFrom, ih, enableAfter_cons]; split <;> rfl

theorem latchedFallingFrom_append (prev : Bool) (vs ws : List Byte) :
    latchedFallingFrom prev (vs ++ ws) = latchedFallingFrom prev vs ++ latchedFallingFrom (enableAfter prev vs) ws := by
  induction vs generalizing prev with
  | nil => rfl
  | cons v vs ih => simp only [List.cons_append, latchedFallingFrom, ih, enableAfter_cons]; split <;> rfl

/-! ## Runs that latch a given list -/

/-- The events latch `nibbles` at either edge of the enable line, which stands low after them. -/
structure Latches (es : List Event) (nibbles : List (BitVec 4 × Bool)) : Prop where
  enableClear : EnableClear es
  rising : latched es = nibbles
  falling : latchedFalling es = nibbles

theorem latches_nil : Latches [] [] := ⟨nofun, rfl, rfl⟩

theorem Latches.append {es fs : List Event} {ns ms : List (BitVec 4 × Bool)} (h : Latches es ns)
    (h' : Latches fs ms) : Latches (es ++ fs) (ns ++ ms) where
  enableClear v hv := by
    rw [standingByte, txBytes_append, List.getLast?_append, Option.or_eq_some_iff] at hv
    exact hv.elim (h'.enableClear v) fun hv => h.enableClear v hv.2
  rising := by
    rw [← h.rising, ← h'.rising, latched, txBytes_append, latchedFrom_append, h.enableClear.enableAfter]; rfl
  falling := by
    rw [← h.falling, ← h'.falling, latchedFalling, txBytes_append, latchedFallingFrom_append,
      h.enableClear.enableAfter]; rfl

theorem latches_wait (us : Nat) : Latches [.wait us] [] := ⟨nofun, rfl, rfl⟩

/-- What an expander byte shows the display at an edge of enable. -/
theorem latchOf_xbyte (n : Byte) (rs bl e : Bool) : latchOf (xbyte n rs bl e) = (n.extractLsb' 4 4, rs) := by
  rw [latchOf, highNibble_xbyte, xbyte_bit0]

/-- A nibble's enable pulse latches its four bits and its register-select, once. -/
theorem latches_nibble (n : Byte) (rs bl : Bool) (a b c : I2cAddr) :
    Latches [.tx a (xbyte n rs bl false), .tx b (xbyte n rs bl true), .wait tPw, .tx c (xbyte n rs bl false),
      .wait tSettle] [(n.extractLsb' 4 4, rs)] where
  enableClear := by
    rintro v ⟨⟩
    exact hasEnable_xbyte n rs bl false
  rising := by simp only [latched, txBytes, latchedFrom, hasEnable_xbyte, latchOf_xbyte]; rfl
  falling := by simp only [latchedFalling, txBytes, latchedFallingFrom, hasEnable_xbyte, latchOf_xbyte]; rfl

theorem latches_idleByte (bl : Bool) (a : I2cAddr) : Latches [.tx a (blBit bl)] [] where
  enableClear := by
    rintro v ⟨⟩
    exact hasEnable_blBit bl
  rising := by simp only [latched, txBytes, latchedFrom, hasEnable_blBit]; rfl
  falling := by simp only [latchedFalling, txBytes, latchedFallingFrom, hasEnable_blBit]; rfl

/-! ## The pieces of pseudocode -/

section Pieces

variable {r : Run} {ns : List (BitVec 4 × Bool)}

theorem Latches.wait (h : Latches r.events ns) (us : Nat) : Latches (wait us r).events ns := by
  simpa using h.append (latches_wait us)

theorem Latches.writeNibble (h : Latches r.events ns) (n : Byte) (rs bl : Bool) :
    Latches (writeNibble Config.i2cWrite n rs bl r).events (ns ++ [(n.extractLsb' 4 4, rs)]) := by
  obtain ⟨a, b, c, hevents⟩ := writeNibble_events n rs bl r
  rw [hevents]
  exact h.append (latches_nibble n rs bl a b c)

theorem Latches.callNibble (h : Latches r.events ns) (n : Byte) (rs : Bool) :
    Latches (callNibble Config.i2cWrite n rs r).events (ns ++ [(n.extractLsb' 4 4, rs)]) :=
  Latches.writeNibble (by rwa [readBl_events]) n rs _

theorem Latches.sendIdleByte (h : Latches r.events ns) : Latches (sendIdleByte Config.i2cWrite r).events ns := by
  obtain ⟨bl, a, hevents⟩ := sendIdleByte_events r
  rw [hevents]
  simpa using h.append (latches_idleByte bl a)

/-- Whatever pieces an operation is composed of, both edges latch the same of them. -/
theorem Composed.latches {p : Run → Run} (hp : Composed p) (h : Latches r.events ns) :
    ∃ ms, Latches (p r).events ms := by
  induction hp generalizing r ns with
  | skip => exact ⟨ns, h⟩
  | nibble n rs => exact ⟨_, h.callNibble n rs⟩
  | idleByte => exact ⟨ns, h.sendIdleByte⟩
  | wait _ => exact ⟨ns, h.wait _⟩
  | writeRs _ => exact ⟨ns, h⟩
  | seq _ _ ihp ihq => obtain ⟨ms, hms⟩ := ihp h; exact ihq hms

end Pieces

/-- Settles O30: each piece of an operation's pseudocode latches at both edges alike and leaves enable clear. -/
theorem eitherEdgeLatchesTheSame : Obligations.EitherEdgeLatchesTheSame := by
  intro i s t hexec
  obtain ⟨body, hbody, hproc⟩ := procedure_eq_prologue_then_composed i
  obtain ⟨-, rfl⟩ := exec_next hexec
  refine ⟨_, rfl, ?_⟩
  have hopening : Latches (prologue i (Run.start s.regs)).events [] := by rw [prologue_events]; exact latches_nil
  obtain ⟨ns, hlatches⟩ := hbody.latches hopening
  rw [hproc, hlatches.rising, hlatches.falling]

/-! ## The latched bytes -/

/-- The two nibbles of a byte sent with a register-select, high nibble first (R43, R83). -/
def nibblesOf (b : Byte × Bool) : List (BitVec 4 × Bool) :=
  [((hiNibble b.1).extractLsb' 4 4, b.2), ((loNibble b.1).extractLsb' 4 4, b.2)]

/-- The nibbles of a byte join to the byte again (R65). -/
theorem highNibble_hiNibble_append_loNibble (v : Byte) :
    (hiNibble v).extractLsb' 4 4 ++ (loNibble v).extractLsb' 4 4 = v := by
  obtain ⟨hfields, -⟩ := nibblesOfByte
  obtain ⟨-, -, -, -, hhi, hlo⟩ := hfields v
  rw [hhi, hlo]
  exact (BitVec.extractLsb'_append_extractLsb'_eq_extractLsb' rfl).trans BitVec.extractLsb'_eq_self

/-- Pairing up the nibbles of bytes gives the bytes back. -/
theorem pairNibbles_nibblesOf (bs : List (Byte × Bool)) : pairNibbles (bs.flatMap nibblesOf) = bs := by
  induction bs with
  | nil => rfl
  | cons b bs ih =>
    simp only [List.flatMap_cons, nibblesOf, List.cons_append, List.nil_append, pairNibbles,
      highNibble_hiNibble_append_loNibble, ih]

section Bytes

variable {r : Run} {ns : List (BitVec 4 × Bool)}

theorem Latches.writeByte (h : Latches r.events ns) (v : Byte) (isData : Bool) :
    Latches (writeByte Config.i2cWrite v isData r).events (ns ++ nibblesOf (v, isData)) := by
  have hhi := Latches.callNibble (r := writeRs isData r) h (hiNibble v) isData
  simpa [writeByte_eq, nibblesOf] using hhi.callNibble (loNibble v) isData

theorem Latches.printProcedure (h : Latches r.events ns) (text : List Byte) :
    Latches (printProcedure Config.i2cWrite text r).events
      (ns ++ (text.map fun c => (c, true)).flatMap nibblesOf) := by
  induction text generalizing r ns with
  | nil => simpa [Machine.printProcedure] using h
  | cons c text ih =>
    simpa [Machine.printProcedure, putCharProcedure, writeData] using ih (h.writeByte c true)

theorem Latches.initPulse (h : Latches r.events ns) (n : Byte) :
    Latches (initPulse Config.i2cWrite n r).events (ns ++ [(n.extractLsb' 4 4, false)]) :=
  (h.callNibble n false).wait tStep

theorem Latches.initCommand (h : Latches r.events ns) (cmd : Byte) :
    Latches (initCommand Config.i2cWrite cmd r).events (ns ++ nibblesOf (cmd, false)) :=
  (h.writeByte cmd false).wait tStep

end Bytes

/-- The four single nibbles of `init` steps 2 and 3 (spec/42_init_sequencer.md R113, R114). -/
def wakeNibbles : List (BitVec 4 × Bool) := [(3, false), (3, false), (3, false), (2, false)]

/-- The commands of `init` steps 4 to 8 (R115 to R119), each with register-select clear. -/
def initCommands (cfg : Config.Params) : List (Byte × Bool) :=
  [(cfg.cmdFunctionSet, false), (cfg.cmdDisplayOn, false), (cmdClear, false), (cfg.cmdEntryInc, false),
   (cfg.cmdDisplayOn, false)]

theorem latches_initSteps (cfg : Config.Params) {r : Run} (h : Latches r.events []) :
    Latches (initSteps cfg r).events (wakeNibbles ++ (initCommands cfg).flatMap nibblesOf) := by
  have pulses := (h.sendIdleByte.wait tPor).initPulse wakeNibble |>.initPulse wakeNibble
    |>.initPulse wakeNibble |>.initPulse fourBitNibble
  have commands := pulses.initCommand cfg.cmdFunctionSet |>.initCommand cfg.cmdDisplayOn
    |>.initCommand cmdClear |>.initCommand cfg.cmdEntryInc |>.initCommand cfg.cmdDisplayOn
  exact commands

/-- Settles O29: the nibbles latched piece by piece, paired up again to the bytes they came from. -/
theorem latchedNibbles : Obligations.LatchedNibbles := by
  refine ⟨fun n rs bl d => ?_, fun d => ?_, fun text d => ?_, fun cfg d => ?_⟩
  · exact (Latches.writeNibble (r := Run.start d) latches_nil n rs bl).rising
  · exact (Latches.sendIdleByte (r := Run.start d) latches_nil).rising
  · rw [(Latches.printProcedure (r := Run.start d) latches_nil text).rising]
    exact pairNibbles_nibblesOf _
  · have hinit : latched (initProcedure { cfg with transport := Config.i2cWrite } (Run.start d)).events = _ :=
      (latches_initSteps cfg (r := initStateReset cfg (Run.start d)) latches_nil).rising
    rw [hinit]
    exact ⟨rfl, pairNibbles_nibblesOf (initCommands cfg)⟩

end Sys2Proof.Proofs
end

section
/-! The Command Layer (spec/41_command_layer.md): the corners of the cursor arithmetic, and the results of `clear`, `home`
and `goto` while the bus registers are written. -/

namespace Sys2Proof.Proofs

open Sys2Proof.Machine Sys2Proof.Safety Sys2Proof.Laws

/-! ## Coordinates and the cursor command byte (R102 to R104) -/

theorem coord_injective : Function.Injective coord := fun a b h => by
  simpa [coord, BitVec.toNat_inj] using h

/-- A coordinate of the command port is one of the rows 1 to 3 as a byte when it is as an integer. -/
theorem coord_mem_rows_iff (row : Byte) : coord row ∈ ([1, 2, 3] : List Int) ↔ row ∈ ([1, 2, 3] : List Byte) :=
  List.mem_map_of_injective (l := [1, 2, 3]) coord_injective

theorem rowBase_coord (row : Byte) :
    rowBase (coord row) = if row = 1 then 0x80 else if row = 2 then 0xC0 else if row = 3 then 0x94 else 0xD4 := by
  have heq (n : Byte) : coord row = coord n ↔ row = n := coord_injective.eq_iff
  exact if_congr (heq 1) rfl (if_congr (heq 2) rfl (if_congr (heq 3) rfl rfl))

theorem max_coord_one (col : Byte) : max (coord col) 1 = coord (if col = 0 then 1 else col) := by
  split_ifs with h
  · rw [h]; rfl
  · have hpos : col.toNat ≠ 0 := fun hzero => h (BitVec.eq_of_toNat_eq hzero)
    simp only [coord]
    omega

/-- The command byte of 8-bit operands, in 8-bit arithmetic: the sum wraps as a byte does (D6, D10). -/
theorem gotoCmd_coord (col row : Byte) :
    gotoCmd (coord col) (coord row) =
      (if row = 1 then 0x80 else if row = 2 then 0xC0 else if row = 3 then 0x94 else 0xD4)
        + (if col = 0 then 1 else col) - 1 := by
  have hbase : BitVec.ofInt 8 (rowBase (coord row)) =
      if row = 1 then 0x80 else if row = 2 then 0xC0 else if row = 3 then 0x94 else 0xD4 := by
    rw [rowBase_coord]
    simp only [apply_ite (BitVec.ofInt 8)]
    rfl
  have hcol (b : Byte) : BitVec.ofInt 8 (coord b) = b := by simp [coord]
  have hsum : gotoCmd (coord col) (coord row) =
      BitVec.ofInt 8 (rowBase (coord row)) + BitVec.ofInt 8 (max (coord col) 1) - 1 :=
    (Int.cast_sub (R := Byte) _ 1).trans (congrArg (· - 1) (BitVec.ofInt_add _ _))
  rw [hsum, hbase, max_coord_one, hcol]

/-- The clamp: a column below 1 counts as column 1. -/
theorem gotoCmd_of_lt_one {col : Int} (hcol : col < 1) (row : Int) : gotoCmd col row = gotoCmd 1 row := by
  simp [gotoCmd, max_eq_right hcol.le]

/-- The overlap: a row's columns 21 to 40 are the columns 1 to 20 of the row whose base is 20 higher (R103 (c)). -/
theorem gotoCmd_add_twenty {c row row' : Int} (hc : 1 ≤ c) (hbase : rowBase row + 20 = rowBase row') :
    gotoCmd (c + 20) row = gotoCmd c row' := by
  simp only [gotoCmd, ← hbase, max_eq_left hc, max_eq_left (show 1 ≤ c + 20 by omega)]
  congr 1
  omega

theorem rowBase_of_fallback {row : Int} (hrow : row ∉ ([1, 2, 3] : List Int)) : rowBase row = 0xD4 := by
  simp only [List.mem_cons, List.not_mem_nil, or_false, not_or] at hrow
  obtain ⟨h1, h2, h3⟩ := hrow
  simp [rowBase, h1, h2, h3]

theorem gotoCmd_of_fallback (col : Int) {row : Int} (hrow : row ∉ ([1, 2, 3] : List Int)) :
    gotoCmd col row = gotoCmd col 4 := by
  rw [gotoCmd, gotoCmd, rowBase_of_fallback hrow]; rfl

theorem exec_goto (col row : Byte) (s : State) :
    exec (.goto col row) s = perform (writeCommand Config.i2cWrite (gotoCmd (coord col) (coord row))) s := rfl

/-- Settles O9: the clamp, the overlap and the fallback for every operand, and the sums at each row's corners. -/
theorem cursorCorners : Obligations.CursorCorners := by
  refine ⟨exec_goto, fun col row hcol => gotoCmd_of_lt_one hcol row, fun row s => ?_, rfl, rfl,
    fun c hc _ => ⟨gotoCmd_add_twenty hc rfl, gotoCmd_add_twenty hc rfl⟩,
    ⟨rfl, rfl, rfl, rfl⟩, ⟨rfl, rfl, rfl, rfl⟩, fun row hrow => gotoCmd_of_fallback 45 hrow, ⟨rfl, rfl⟩, rfl, rfl⟩
  have hclamp : gotoCmd (coord 0) (coord row) = gotoCmd (coord 1) (coord row) := gotoCmd_of_lt_one (by decide) _
  rw [exec_goto, exec_goto, hclamp]

/-- Settles O10: the base of a fallback row is that of row 4, for integers and for the bytes that stand for them. -/
theorem rowFallback : Obligations.RowFallback := by
  refine ⟨fun _ => rowBase_of_fallback, fun col _ => gotoCmd_of_fallback col, fun col row s hrow => ?_,
    rfl, rfl, rfl, by decide⟩
  have hcmd : gotoCmd (coord col) (coord row) = gotoCmd (coord col) (coord 4) :=
    gotoCmd_of_fallback _ (mt (coord_mem_rows_iff row).mp hrow)
  rw [exec_goto, exec_goto, hcmd]

/-! ## One byte as a whole operation -/

theorem perform_wait {s : State} (us : Nat) (hidle : idle s) :
    perform (wait us) s = .next { s with trace := s.trace ++ [.wait us] } :=
  perform_idle _ hidle

section Written

variable {s : State} (hidle : idle s) (hbus : busRegistersWritten s)
include hidle hbus

/-- The next state of a `write_byte` with the bus registers written: `RS` and the trace (R83). -/
theorem perform_writeByte_written (v : Byte) (isData : Bool) :
    perform (writeByte Config.i2cWrite v isData) s = .next { s with
      regs := { s.regs with rs := isData, rsWritten := true }
      trace := s.trace ++ byteTrace s.regs.addr v isData s.regs.bl } := by
  obtain ⟨ha, hb⟩ := hbus
  have hevents := writeByte_events_written (r := Run.start s.regs) v isData ha hb
  rw [perform_idle _ hidle, hevents, writeByte_written v isData ha hb]
  rfl

/-- The shape that `clear` and `home` share: a command, then a wait (R100, R101). -/
theorem perform_wait_writeCommand_written (cmd : Byte) (us : Nat) :
    perform (fun r => wait us (writeCommand Config.i2cWrite cmd r)) s = .next { s with
      regs := { s.regs with rs := false, rsWritten := true }
      trace := s.trace ++ (byteTrace s.regs.addr cmd false s.regs.bl ++ [.wait us]) } := by
  have hcommand : perform (writeCommand Config.i2cWrite cmd) s = _ := perform_writeByte_written hidle hbus cmd false
  rw [perform_seq (appends_wait us), hcommand, andThen, ← List.append_assoc]
  exact perform_wait us hidle

end Written

/-- Settles O32: the command 0x01, then the wait. -/
theorem clearResult : Obligations.ClearResult :=
  ⟨rfl, fun _ hidle hbus => perform_wait_writeCommand_written hidle hbus cmdClear tClr, rfl, rfl⟩

/-- Settles O33: the command 0x02, then the wait. -/
theorem homeResult : Obligations.HomeResult :=
  ⟨rfl, fun _ hidle hbus => perform_wait_writeCommand_written hidle hbus cmdHome tClr, rfl⟩

/-- Settles O34: one command, its byte computed in 8-bit arithmetic. -/
theorem gotoResult : Obligations.GotoResult := by
  refine ⟨fun _ _ => rfl, fun s col row hidle hbus => ?_, rfl, rfl, rfl⟩
  rw [exec_goto, gotoCmd_coord]
  exact perform_writeByte_written hidle hbus _ false

end Sys2Proof.Proofs
end

section
/-! The initialization sequencer (spec/42_init_sequencer.md): `init` writes every register before its first event, so
from any register file each step emits the events R120 lists for it and leaves the registers as the state reset left
them; and what its trace says, read off that list. -/

namespace Sys2Proof.Proofs

open Sys2Proof.Machine Sys2Proof.Safety Sys2Proof.Laws

/-! ## The steps, from the registers of the state reset -/

theorem callNibble_events_written {r : Run} (n : Byte) (rs : Bool) (ha : r.regs.addrWritten = true)
    (hb : r.regs.blWritten = true) :
    (callNibble Config.i2cWrite n rs r).events = r.events ++ nibbleTrace r.regs.addr n rs r.regs.bl := by
  rw [callNibble_written n rs ha hb, events_append_slots]

/-- The register file `d` after the state reset of `init` (R111): all written, the count of draws that of `d`. -/
def initRegs (cfg : Config.Params) (d : DisplayState) : DisplayState where
  addr := cfg.cfgAddr
  bl := cfg.cfgBl
  rs := false
  addrWritten := true
  blWritten := true
  rsWritten := true
  draws := d.draws

/-- The run stands inside `init`: its registers are those of the state reset, and it has emitted `es`. -/
structure InInit (cfg : Config.Params) (d : DisplayState) (es : List Event) (r : Run) : Prop where
  regs : r.regs = initRegs cfg d
  events : r.events = es

section InInit

variable {cfg : Config.Params} {d : DisplayState} {es : List Event} {r : Run}

theorem InInit.addrWritten (h : InInit cfg d es r) : r.regs.addrWritten = true := by rw [h.regs]; rfl

theorem InInit.blWritten (h : InInit cfg d es r) : r.regs.blWritten = true := by rw [h.regs]; rfl

/-- `RS` is false already, so writing it again for a command changes nothing. -/
theorem InInit.writeRs_regs (h : InInit cfg d es r) : (writeRs false r).regs = initRegs cfg d := by
  rw [writeRs, h.regs]; rfl

theorem InInit.wait (h : InInit cfg d es r) (us : Nat) : InInit cfg d (es ++ [.wait us]) (wait us r) :=
  ⟨h.regs, by rw [wait_events, h.events]⟩

theorem InInit.sendIdleByte (h : InInit cfg d es r) :
    InInit cfg d (es ++ [.tx cfg.cfgAddr (blBit cfg.cfgBl)]) (sendIdleByte Config.i2cWrite r) := by
  rw [sendIdleByte_written h.addrWritten h.blWritten, ← h.events, h.regs]
  exact ⟨rfl, events_append_slots _ _ r [.tx cfg.cfgAddr (blBit cfg.cfgBl)]⟩

theorem InInit.callNibble (h : InInit cfg d es r) (n : Byte) :
    InInit cfg d (es ++ nibbleTrace cfg.cfgAddr n false cfg.cfgBl) (callNibble Config.i2cWrite n false r) where
  regs := by rw [callNibble_written n false h.addrWritten h.blWritten, h.regs]
  events := by rw [callNibble_events_written n false h.addrWritten h.blWritten, h.events, h.regs]; rfl

theorem InInit.writeCommand (h : InInit cfg d es r) (cmd : Byte) :
    InInit cfg d (es ++ byteTrace cfg.cfgAddr cmd false cfg.cfgBl) (writeCommand Config.i2cWrite cmd r) where
  regs := by rw [Machine.writeCommand, writeByte_written cmd false h.addrWritten h.blWritten, h.writeRs_regs]
  events := by
    rw [Machine.writeCommand, writeByte_events_written cmd false h.addrWritten h.blWritten, h.events, h.regs]; rfl

/-- One step of R113 or R114: a single nibble, then the wait. -/
theorem InInit.initPulse (h : InInit cfg d es r) (n : Byte) :
    InInit cfg d (es ++ (nibbleTrace cfg.cfgAddr n false cfg.cfgBl ++ [.wait 5000]))
      (initPulse Config.i2cWrite n r) := by
  rw [← List.append_assoc]
  exact (h.callNibble n).wait tStep

/-- One step of R115 to R119: a command, then the wait. -/
theorem InInit.initCommand (h : InInit cfg d es r) (cmd : Byte) :
    InInit cfg d (es ++ (byteTrace cfg.cfgAddr cmd false cfg.cfgBl ++ [.wait 5000]))
      (initCommand Config.i2cWrite cmd r) := by
  rw [← List.append_assoc]
  exact (h.writeCommand cmd).wait tStep

end InInit

/-- The steps of `init` one after the other: the events of R120, and the registers of R111. -/
theorem inInit_initProcedure (cfg : Config.Params) (d : DisplayState) :
    InInit cfg d (initTrace cfg) (initProcedure { cfg with transport := Config.i2cWrite } (Run.start d)) := by
  have reset : InInit cfg d [] (initStateReset cfg (Run.start d)) := ⟨rfl, rfl⟩
  have pulses := (reset.sendIdleByte.wait tPor).initPulse wakeNibble |>.initPulse wakeNibble
    |>.initPulse wakeNibble |>.initPulse fourBitNibble
  have commands := pulses.initCommand cfg.cmdFunctionSet |>.initCommand cfg.cmdDisplayOn
    |>.initCommand cmdClear |>.initCommand cfg.cmdEntryInc |>.initCommand cfg.cmdDisplayOn
  exact commands

/-- `init` from every idle state, whatever its registers (R110, R122). -/
theorem exec_init {s : State} (hidle : idle s) :
    exec .init s = .next { s with
      regs := initRegs Config.params s.regs
      trace := s.trace ++ initTrace Config.params } := by
  obtain ⟨hregs, hevents⟩ : InInit Config.params s.regs (initTrace Config.params)
      (procedure .init (Run.start s.regs)) := inInit_initProcedure Config.params s.regs
  rw [exec_eq_perform, perform_idle _ hidle, hregs, hevents]

/-! ## What the trace of `init` says -/

theorem txAddrs_initTrace (cfg : Config.Params) : txAddrs (initTrace cfg) = List.replicate 43 cfg.cfgAddr := rfl

theorem eq_cfgAddr_of_mem_txAddrs_initTrace (cfg : Config.Params) {a : I2cAddr} (ha : a ∈ txAddrs (initTrace cfg)) :
    a = cfg.cfgAddr := by
  rw [txAddrs_initTrace] at ha
  exact List.eq_of_mem_replicate ha

/-- The nibbles `init` strobes into the display, in order: the four single ones, then two for each command. -/
def initNibbles (cfg : Config.Params) : List Byte :=
  [wakeNibble, wakeNibble, wakeNibble, fourBitNibble] ++
    (initCommands cfg).flatMap fun cmd => [hiNibble cmd.1, loNibble cmd.1]

/-- The three bytes of a nibble with register-select clear (R82). -/
def strobeBytes (bl : Bool) (n : Byte) : List Byte :=
  [xbyte n false bl false, xbyte n false bl true, xbyte n false bl false]

/-- The bytes of `init`: the pins-idle byte, then every nibble's strobe. -/
theorem txBytes_initTrace (cfg : Config.Params) :
    txBytes (initTrace cfg) = blBit cfg.cfgBl :: (initNibbles cfg).flatMap (strobeBytes cfg.cfgBl) := by
  simp only [initTrace, txBytes_append, txBytes_nibbleTrace, txBytes_byteTrace, txBytes]
  rfl

theorem strobeBytes_and_08 {bl : Bool} {n v : Byte} (hv : v ∈ strobeBytes bl n) : v &&& 0x08 = blBit bl := by
  simp only [strobeBytes, List.mem_cons, List.not_mem_nil, or_false] at hv
  obtain rfl | rfl | rfl := hv <;> exact xbyte_and_08 n false bl _

theorem blBit_and_08 (bl : Bool) : blBit bl &&& 0x08 = blBit bl := by cases bl <;> rfl

theorem txBytes_initTrace_and_08 (cfg : Config.Params) {v : Byte} (hv : v ∈ txBytes (initTrace cfg)) :
    v &&& 0x08 = blBit cfg.cfgBl := by
  rw [txBytes_initTrace, List.mem_cons, List.mem_flatMap] at hv
  obtain rfl | ⟨n, -, hstrobe⟩ := hv
  · exact blBit_and_08 cfg.cfgBl
  · exact strobeBytes_and_08 hstrobe

/-- The backlight bit is a field of its own, so lighting it adds 0x08 to the byte (R66). -/
theorem xbyte_backlight (n : Byte) (rs e : Bool) : xbyte n rs true e = xbyte n rs false e + 0x08 := by
  have hoff : blBit false = 0 := rfl
  have hon : blBit true = 0x08 := rfl
  rw [xbyte_eq_add, xbyte_eq_add, hoff, hon, add_zero]
  exact add_right_comm _ _ _

theorem strobeBytes_backlight (n : Byte) : strobeBytes true n = (strobeBytes false n).map (· + 0x08) := by
  simp only [strobeBytes, xbyte_backlight, List.map_cons, List.map_nil]

theorem txBytes_initTrace_backlight (cfg : Config.Params) :
    txBytes (initTrace { cfg with cfgBl := true }) =
      (txBytes (initTrace { cfg with cfgBl := false })).map (· + 0x08) := by
  rw [txBytes_initTrace, txBytes_initTrace, List.map_cons, List.map_flatMap, funext strobeBytes_backlight]
  rfl

/-- The display latches one nibble for each of R113 and R114's pulses and two for each command. -/
theorem latched_initTrace (cfg : Config.Params) :
    latched (initTrace cfg) = wakeNibbles ++ (initCommands cfg).flatMap nibblesOf := by
  rw [← (inInit_initProcedure cfg DisplayState.powerOn).events]
  exact (latches_initSteps cfg (r := initStateReset cfg (Run.start DisplayState.powerOn)) latches_nil).rising

/-- The waits of R120: power-on, then those of four single nibbles and of five commands. -/
def initWaits : List Nat :=
  40000 :: (List.replicate 4 [1, 50, 5000] ++ List.replicate 5 [1, 50, 1, 50, 5000]).flatten

theorem waits_initTrace (cfg : Config.Params) : waits (initTrace cfg) = initWaits := rfl

/-- The counts of R120: 1 + 3 × 14 transmissions, and the waits whatever is transmitted. -/
theorem traceCost_initTrace (cfg : Config.Params) : traceCost (initTrace cfg) = ⟨43, 38, 85714⟩ := by
  have hsum : initWaits.sum = 85714 := by decide
  rw [traceCost, totalWait, waits_initTrace, txBytes_initTrace, hsum]
  rfl

/-- The last byte of `init` is that of the low nibble of `CMD_DISPLAY_ON`, enable clear (R119). -/
theorem standingByte_initTrace (cfg : Config.Params) :
    standingByte (initTrace cfg) = some (xbyte (loNibble cfg.cmdDisplayOn) false cfg.cfgBl false) := by
  rw [standingByte, txBytes_initTrace]; rfl

/-- Settles O41: the registers are written before they are read, and each fact of the trace is read off its bytes. -/
theorem initResult : Obligations.InitResult :=
  ⟨rfl, fun _ hidle => exec_init hidle, fun cfg =>
    ⟨fun _ => eq_cfgAddr_of_mem_txAddrs_initTrace cfg, fun _ => txBytes_initTrace_and_08 cfg,
      standingByte_initTrace cfg⟩⟩

end Sys2Proof.Proofs
end

section
/-! The full trace of `init`, its counts and its bytes (spec/42_init_sequencer.md R120). -/

namespace Sys2Proof.Proofs.InitSequencer

open Sys2Proof.Machine Sys2Proof.Safety Sys2Proof.Laws

/-- Settles O42: the trace step by step, its counts whatever the bytes are, and its bytes nibble by nibble. -/
theorem initTrace : Obligations.InitTrace := by
  refine ⟨fun cfg d => (inInit_initProcedure cfg d).events, fun cfg => ⟨rfl, traceCost_initTrace cfg, ?_⟩,
    fun _ => eq_cfgAddr_of_mem_txAddrs_initTrace Config.suggested, ?_, txBytes_initTrace_backlight⟩
  · rw [latched_initTrace]; rfl
  · rw [txBytes_initTrace]; rfl

end Sys2Proof.Proofs.InitSequencer
end

section
/-! The Public Driver API (spec/43_public_api.md): the next state of each of its operations while the registers it reads
are written, the repetition of an operation, and `init` followed by `print_at`. -/

namespace Sys2Proof.Proofs

open Sys2Proof.Machine Sys2Proof.Safety Sys2Proof.Laws

/-! ## Operations that emit nothing: `set_address` (R130) and the empty `print` (R132) -/

theorem perform_of_events_nil {p : Run → Run} {s : State} (hidle : idle s) (h : (p (Run.start s.regs)).events = []) :
    perform p s = .next { s with regs := (p (Run.start s.regs)).regs } := by
  rw [perform_idle _ hidle, h, List.append_nil]

theorem exec_print_nil {s : State} (hidle : idle s) : exec (.print []) s = .next s :=
  perform_of_events_nil (p := procedure (.print [])) hidle rfl

/-- Settles O40: one register write, no event. -/
theorem setAddressResult : Obligations.SetAddressResult := by
  refine ⟨fun addr => ?_, fun _ addr hidle => perform_of_events_nil (p := writeAddr addr) hidle rfl⟩
  have hwiden : addr.setWidth 8 = 0#1 ++ addr := BitVec.setWidth_eq_append (by decide)
  rw [encode, Instr.operandBytes, hwiden]; rfl

/-! ## `put_char` and the backlight (R131, R135, R136) -/

/-- The next state of `put_char` while the bus registers are written. -/
theorem exec_putChar_written {s : State} (hidle : idle s) (hbus : busRegistersWritten s) (c : Byte) :
    exec (.putChar c) s = .next { s with
      regs := { s.regs with rs := true, rsWritten := true }
      trace := s.trace ++ byteTrace s.regs.addr c true s.regs.bl } :=
  perform_writeByte_written hidle hbus c true

/-- Bit 0 of every byte that `write_byte` transmits is its register-select (R64). -/
theorem bit0_of_mem_txBytes_byteTrace {a : I2cAddr} {c v : Byte} {isData bl : Bool}
    (hv : v ∈ txBytes (byteTrace a c isData bl)) : v.getLsbD 0 = isData := by
  simp only [txBytes_byteTrace, List.mem_cons, List.not_mem_nil, or_false] at hv
  rcases hv with rfl | rfl | rfl | rfl | rfl | rfl <;> exact xbyte_bit0 ..

/-- Settles O35: one byte with register-select set. -/
theorem putCharResult : Obligations.PutCharResult :=
  ⟨fun _ => rfl, fun _ c hidle hbus => exec_putChar_written hidle hbus c,
    fun _ _ _ _ hv => bit0_of_mem_txBytes_byteTrace hv, rfl⟩

/-- The shape that the two backlight operations share: `BL` is written first, so the idle byte carries the new value. -/
theorem perform_sendIdleByte_writeBl {s : State} (hidle : idle s) (ha : s.regs.addrWritten = true) (bl : Bool) :
    perform (fun r => sendIdleByte Config.i2cWrite (writeBl bl r)) s = .next { s with
      regs := { s.regs with bl := bl, blWritten := true }
      trace := s.trace ++ [.tx s.regs.addr (blBit bl)] } := by
  rw [perform_idle _ hidle, sendIdleByte_written (r := writeBl bl (Run.start s.regs)) ha rfl]; rfl

/-- Settles O38: the idle byte 0x08 after the write of `BL`. -/
theorem backlightOnResult : Obligations.BacklightOnResult :=
  ⟨rfl, fun _ hidle ha => perform_sendIdleByte_writeBl hidle ha true⟩

/-- Settles O39: the idle byte 0x00 after the write of `BL`. -/
theorem backlightOffResult : Obligations.BacklightOffResult :=
  ⟨rfl, fun _ hidle ha => perform_sendIdleByte_writeBl hidle ha false⟩

/-! ## `print` and `print_at` (R132, R134) -/

@[simp] theorem textTrace_nil (a : I2cAddr) (bl : Bool) : textTrace a bl [] = [] := rfl

@[simp] theorem textTrace_cons (a : I2cAddr) (bl : Bool) (c : Byte) (text : List Byte) :
    textTrace a bl (c :: text) = byteTrace a c true bl ++ textTrace a bl text := rfl

/-- The next state of `print` while the bus registers are written: `put_char`, then the rest of the text. -/
theorem exec_print_written {s : State} (hidle : idle s) (hbus : busRegistersWritten s) (text : List Byte) :
    exec (.print text) s = .next { s with
      regs := if text = [] then s.regs else { s.regs with rs := true, rsWritten := true }
      trace := s.trace ++ textTrace s.regs.addr s.regs.bl text } := by
  obtain ⟨-, -, print_cons, -⟩ := expansionsAgree
  induction text generalizing s with
  | nil => simpa using exec_print_nil hidle
  | cons c text ih =>
    rw [print_cons, exec_putChar_written hidle hbus, andThen, ih]
    · simp
    · exact hidle
    · exact hbus

theorem waits_append (es fs : List Event) : waits (es ++ fs) = waits es ++ waits fs := by
  induction es with
  | nil => rfl
  | cons e es ih => cases e <;> simp [waits, ih]

theorem totalWait_append (es fs : List Event) : totalWait (es ++ fs) = totalWait es + totalWait fs := by
  simp [totalWait, waits_append]

/-- The counts of a text: those of its characters added up. -/
theorem textTrace_counts (a : I2cAddr) (bl : Bool) (text : List Byte) :
    (textTrace a bl text).length = 10 * text.length ∧
    (txBytes (textTrace a bl text)).length = 6 * text.length ∧
    totalWait (textTrace a bl text) = 102 * text.length := by
  induction text with
  | nil => exact ⟨rfl, rfl, rfl⟩
  | cons c text ih =>
    obtain ⟨hlength, hbytes, hwait⟩ := ih
    have charLength : (byteTrace a c true bl).length = 10 := rfl
    have charBytes : (txBytes (byteTrace a c true bl)).length = 6 := rfl
    have charWait : totalWait (byteTrace a c true bl) = 102 := rfl
    simp only [textTrace_cons, txBytes_append, totalWait_append, List.length_append, List.length_cons, hlength, hbytes,
      hwait, charLength, charBytes, charWait]
    omega

/-- Settles O36: the characters one after the other, and their counts added up. -/
theorem printResult : Obligations.PrintResult :=
  ⟨fun _ => rfl, fun _ text hidle hbus => exec_print_written hidle hbus text, fun _ => exec_print_nil,
    textTrace_counts, rfl⟩

/-- Settles O37: `goto`, then `print` from the state it leaves. -/
theorem printAtResult : Obligations.PrintAtResult := by
  refine ⟨fun _ _ _ => rfl, fun s col row text hidle hbus => ?_⟩
  obtain ⟨-, -, -, printAt_eq⟩ := expansionsAgree
  obtain ⟨-, exec_goto_written, -⟩ := gotoResult
  rw [printAt_eq, exec_goto_written s col row hidle hbus, andThen, exec_print_written]
  · cases text <;> simp
  · exact hidle
  · exact hbus

/-! ## Repetition (R138) -/

theorem exec_completes {s : State} (hidle : idle s) (i : Instr) : ∃ t, exec i s = .next t :=
  ⟨_, (exec_eq_perform i s).trans (perform_idle _ hidle)⟩

/-- Settles O47: the operation leaves the registers its transmissions read as they were, and no trace depends on
anything else. -/
theorem repetitionRepeatsTheTrace : Obligations.RepetitionRepeatsTheTrace := by
  intro i s hidle hbus hinit hset hon hoff
  obtain ⟨t, hexec⟩ := exec_completes hidle i
  obtain ⟨haddr, hbl, -, hdraws, -, -, hpc, -, -⟩ := frameOfOperations i s t hexec
  obtain ⟨haddr, haddrWritten⟩ := haddr hinit hset
  obtain ⟨hbl, hblWritten⟩ := hbl hinit hon hoff
  have hsame : SameForBus s.regs t.regs :=
    ⟨haddrWritten.symm, hblWritten.symm, fun _ => haddr.symm, fun _ => hbl.symm, (hdraws hbus).symm⟩
  obtain ⟨u, tr, hexec', htrace, htrace', -⟩ :=
    traceIgnoresRsAndUnwrittenValues i s t t hidle (hpc.trans hidle) hsame hexec
  obtain ⟨haddr', hbl', -⟩ := frameOfOperations i t u hexec'
  obtain ⟨haddr', -⟩ := haddr' hinit hset
  obtain ⟨hbl', -⟩ := hbl' hinit hon hoff
  exact ⟨t, u, tr, hexec, hexec', htrace, htrace', haddr'.trans haddr, hbl'.trans hbl⟩

/-- Settles O48: `init` writes the bus registers, and `print_at` runs on the values it gave them. -/
theorem initThenPrintAt : Obligations.InitThenPrintAt := by
  intro s hidle
  obtain ⟨-, exec_printAt_written⟩ := printAtResult
  refine ⟨_, _, exec_init hidle, exec_printAt_written _ 1 1 [0x4F, 0x4B] hidle ⟨rfl, rfl⟩, ?_⟩
  simp [initRegs]

end Sys2Proof.Proofs
end

section
/-! Where the machine can stop (spec/30_encoding.md R68, R69; 60_exceptions.md R150): a state that meets the invariant
has a next state, unless its command port opens with a reserved encoding. -/

namespace Sys2Proof.Proofs

open Sys2Proof.Machine Sys2Proof.Safety Sys2Proof.Laws

/-- A position in the pending trace or at its end advances (R26). -/
theorem advance_completes {k : Nat} {s : State} (hk : k ≤ s.pending.length) : ∃ t, advance k s = .next t := by
  rcases advance_cases k s with ⟨_, -, hemit⟩ | ⟨-, hretire⟩ | ⟨hpast, -⟩
  · exact ⟨_, hemit⟩
  · exact ⟨_, hretire⟩
  · exact absurd hpast (Nat.not_lt.mpr hk)

/-- All that a step can do from a state that meets the invariant. -/
theorem step_cases_of_invariant {s : State} (h : Invariant s) :
    (∃ t, step s = .next t) ∨ (∃ op, step s = .refused (.reservedOpcode op)) ∨
    ∃ b, step s = .refused (.reservedOperand b) := by
  cases hpc : s.pc with
  | none =>
    rw [step_idle hpc]
    rcases takeCommand_cases exec s with ⟨i, rest, -, hwhole⟩ | hopcode | hoperand | hwait
    · rw [hwhole]
      exact .inl (exec_completes (s := { s with port := rest }) hpc i)
    · exact .inr (.inl hopcode)
    · exact .inr (.inr hoperand)
    · exact .inl ⟨s, hwait⟩
  | some k =>
    rw [step_busy hpc]
    exact .inl (advance_completes (h.position k hpc))

/-- Settles O24: the invariant keeps the position inside the pending trace, and an idle step stops only at the port. -/
theorem onlyReservedEncodingsStop : Obligations.OnlyReservedEncodingsStop := by
  intro s h
  rcases step_cases_of_invariant h with ⟨t, hstep⟩ | ⟨op, hstep⟩ | ⟨b, hstep⟩ <;> rw [hstep]
  · exact ⟨nofun, nofun⟩
  · exact ⟨nofun, by rintro _ ⟨⟩; exact .inl ⟨op, rfl⟩⟩
  · exact ⟨nofun, by rintro _ ⟨⟩; exact .inr ⟨b, rfl⟩⟩

end Sys2Proof.Proofs
end

section
/-! The timing table (spec/70_reset_and_hazards.md R187): each piece of pseudocode adds a fixed cost to the trace of the
run it is called in, whether its registers are written or drawn. -/

namespace Sys2Proof.Proofs

open Sys2Proof.Machine Sys2Proof.Safety Sys2Proof.Laws

/-! ## Costs add up -/

/-- The cost of one stretch of trace followed by another. -/
def addCost (c d : Cost) : Cost where
  transmissions := c.transmissions + d.transmissions
  waitEvents := c.waitEvents + d.waitEvents
  microseconds := c.microseconds + d.microseconds

theorem addCost_assoc (a b c : Cost) : addCost (addCost a b) c = addCost a (addCost b c) := by
  simp [addCost, Nat.add_assoc]

theorem zero_addCost (c : Cost) : addCost ⟨0, 0, 0⟩ c = c := by simp [addCost]

theorem traceCost_append (es fs : List Event) : traceCost (es ++ fs) = addCost (traceCost es) (traceCost fs) := by
  simp [traceCost, addCost, waits_append, totalWait_append]

/-! ## What each piece adds -/

theorem traceCost_wait (us : Nat) (r : Run) :
    traceCost (wait us r).events = addCost (traceCost r.events) ⟨0, 1, us⟩ := by
  rw [wait_events, traceCost_append]; rfl

theorem traceCost_sendExpanderByte (v : Byte) (r : Run) :
    traceCost (sendExpanderByte Config.i2cWrite v r).events = addCost (traceCost r.events) ⟨1, 0, 0⟩ := by
  rw [sendExpanderByte_i2cWrite, emit_events, readAddr_events, traceCost_append]; rfl

theorem traceCost_sendIdleByte (r : Run) :
    traceCost (sendIdleByte Config.i2cWrite r).events = addCost (traceCost r.events) ⟨1, 0, 0⟩ := by
  rw [sendIdleByte, traceCost_sendExpanderByte, readBl_events]

theorem traceCost_writeNibble (n : Byte) (rs bl : Bool) (r : Run) :
    traceCost (writeNibble Config.i2cWrite n rs bl r).events = addCost (traceCost r.events) ⟨3, 2, 51⟩ := by
  obtain ⟨_, _, _, hevents⟩ := writeNibble_events n rs bl r
  rw [hevents, traceCost_append]; rfl

theorem traceCost_callNibble (n : Byte) (rs : Bool) (r : Run) :
    traceCost (callNibble Config.i2cWrite n rs r).events = addCost (traceCost r.events) ⟨3, 2, 51⟩ := by
  rw [callNibble, traceCost_writeNibble, readBl_events]

/-- `write_byte` costs two nibbles (R83). -/
theorem traceCost_writeByte (v : Byte) (isData : Bool) (r : Run) :
    traceCost (writeByte Config.i2cWrite v isData r).events = addCost (traceCost r.events) ⟨6, 4, 102⟩ := by
  rw [writeByte_eq, traceCost_callNibble, traceCost_callNibble, writeRs_events, addCost_assoc]; rfl

/-- `clear` and `home` cost a command and one wait (R100, R101). -/
theorem traceCost_wait_writeCommand (cmd : Byte) (us : Nat) (r : Run) :
    traceCost (wait us (writeCommand Config.i2cWrite cmd r)).events
      = addCost (traceCost r.events) ⟨6, 5, 102 + us⟩ := by
  rw [traceCost_wait, writeCommand, traceCost_writeByte, addCost_assoc]; rfl

theorem operationCost_print_cons (c : Byte) (text : List Byte) :
    operationCost (.print (c :: text)) = addCost ⟨6, 4, 102⟩ (operationCost (.print text)) := by
  simp only [operationCost, addCost, List.length_cons, Cost.mk.injEq]
  omega

/-- `print` costs its characters (R132). -/
theorem traceCost_printProcedure (text : List Byte) (r : Run) :
    traceCost (printProcedure Config.i2cWrite text r).events
      = addCost (traceCost r.events) (operationCost (.print text)) := by
  induction text generalizing r with
  | nil => rfl
  | cons c text ih =>
    rw [printProcedure, ih, putCharProcedure, writeData, traceCost_writeByte, addCost_assoc, operationCost_print_cons]

/-! ## The table -/

/-- The pseudocode of every operation has the counts of its row, from every register file. -/
theorem traceCost_procedure (i : Instr) (d : DisplayState) :
    traceCost (procedure i (Run.start d)).events = operationCost i := by
  cases i with
  | init => exact (congrArg traceCost (inInit_initProcedure Config.params d).events).trans (traceCost_initTrace _)
  | setAddress addr => rfl
  | clear => exact traceCost_wait_writeCommand cmdClear tClr _
  | home => exact traceCost_wait_writeCommand cmdHome tClr _
  | goto col row => exact traceCost_writeByte _ false _
  | putChar c => exact traceCost_writeByte c true _
  | print text => exact (traceCost_printProcedure text _).trans (zero_addCost _)
  | printAt col row text =>
    have hgoto := traceCost_writeByte (gotoCmd (coord col) (coord row)) false (Run.start d)
    exact (traceCost_printProcedure text _).trans (congrArg (addCost · _) hgoto)
  | backlightOn => exact traceCost_sendIdleByte _
  | backlightOff => exact traceCost_sendIdleByte _

/-- Settles O43: a whole operation appends its pseudocode's events, and those have the counts of the table. -/
theorem everyOperationCompletes : Obligations.EveryOperationCompletes := by
  refine ⟨fun i s hidle => ?_, fun v n rs bl d => ⟨traceCost_sendExpanderByte v _, traceCost_writeNibble n rs bl _,
    traceCost_writeByte v rs _, traceCost_writeByte v false _, traceCost_writeByte v true _⟩⟩
  obtain ⟨t, hexec⟩ := exec_completes hidle i
  obtain ⟨-, rfl⟩ := exec_next hexec
  exact ⟨_, _, hexec, rfl, traceCost_procedure i s.regs, hidle, rfl, rfl⟩

end Sys2Proof.Proofs
end

section
/-! Hazards of the cursor commands (spec/70_reset_and_hazards.md R183): where the sum of R67 is the command byte itself,
and where it keeps bit 7. -/

namespace Sys2Proof.Proofs

open Sys2Proof.Machine Sys2Proof.Safety

/-- Every base already has bit 7 set, so a cursor command can lose it only by a carry out of the byte. -/
theorem rowBase_ge_0x80 (row : Int) : 0x80 ≤ rowBase row := by
  unfold rowBase
  split_ifs <;> decide

theorem bit7_of_ge_0x80 {v : Byte} (hv : 0x80 ≤ v.toNat) : v.getLsbD 7 = true := by
  have hmsb : v.msb = true := by rw [BitVec.msb_eq_decide]; exact decide_eq_true hv
  rwa [BitVec.msb_eq_getLsbD_last] at hmsb

theorem rows_count_le_four (rows : Config.Rows) : rows.count ≤ 4 := by
  cases rows <;> decide

/-- Settles O11: within 44 columns the sum of R67 is the command byte (O8), and it is at least the row's base. -/
theorem insideDisplayNeverWraps : Obligations.InsideDisplayNeverWraps := by
  intro cfg col row hcolumns ⟨hcol, hcol_le, hrow, hrow_le⟩
  have hrows := rows_count_le_four cfg.rows
  have hsum : ((gotoCmd col row).toNat : Int) = rowBase row + max col 1 - 1 :=
    cursorCommandByte.2 col row hrow (by omega) (by omega)
  rw [max_eq_left hcol] at hsum
  have hbase := rowBase_ge_0x80 row
  exact ⟨hsum, bit7_of_ge_0x80 (by omega)⟩

end Sys2Proof.Proofs
end

section
/-! Reserved opcodes (spec/30_encoding.md R68, the spec's decision D2) and words the spec writes out
(spec/95_test_vectors.md V9). -/

namespace Sys2Proof.Proofs

open Sys2Proof.Machine Sys2Proof.Safety Sys2Proof.Laws

/-! ## An opcode past the table is all that decodes to a reserved opcode -/

theorem decode_reservedOpcode {op : Byte} (hop : 0x0A ≤ op.toNat) (bs : List Byte) :
    decode (op :: bs) = .reservedOpcode op := by
  simp only [decode]
  split
  case h_11 => rfl
  all_goals omega

theorem decodeAddress_ne_reservedOpcode (bs : List Byte) (op : Byte) : decodeAddress bs ≠ .reservedOpcode op := by
  cases bs with
  | nil => nofun
  | cons b bs => rw [decodeAddress]; split_ifs <;> nofun

theorem decodeGoto_ne_reservedOpcode (bs : List Byte) (op : Byte) : decodeGoto bs ≠ .reservedOpcode op := by
  unfold decodeGoto; split <;> nofun

theorem decodePutChar_ne_reservedOpcode (bs : List Byte) (op : Byte) : decodePutChar bs ≠ .reservedOpcode op := by
  cases bs <;> nofun

theorem decodePrint_ne_reservedOpcode (bs : List Byte) (op : Byte) : decodePrint bs ≠ .reservedOpcode op := by
  unfold decodePrint; split <;> nofun

theorem decodePrintAt_ne_reservedOpcode (bs : List Byte) (op : Byte) : decodePrintAt bs ≠ .reservedOpcode op := by
  unfold decodePrintAt
  split
  · split <;> nofun
  · nofun

theorem decode_ne_reservedOpcode {op : Byte} (hop : op.toNat < 0x0A) (bs : List Byte) (op' : Byte) :
    decode (op :: bs) ≠ .reservedOpcode op' := by
  simp only [decode]
  split
  case h_2 => exact decodeAddress_ne_reservedOpcode bs op'
  case h_5 => exact decodeGoto_ne_reservedOpcode bs op'
  case h_6 => exact decodePutChar_ne_reservedOpcode bs op'
  case h_7 => exact decodePrint_ne_reservedOpcode bs op'
  case h_8 => exact decodePrintAt_ne_reservedOpcode bs op'
  case h_11 => grind
  all_goals nofun

/-- An idle step refuses an opcode only where the port decodes to it: no operation carried out from idle refuses. -/
theorem step_reservedOpcode_iff {s : State} (hidle : s.pc = none) (op : Byte) :
    step s = .refused (.reservedOpcode op) ↔ decode s.port = .reservedOpcode op := by
  rw [step_idle hidle, takeCommand]
  cases decode s.port with
  | instr i rest =>
    obtain ⟨t, hexec⟩ := exec_completes (s := { s with port := rest }) hidle i
    simp [hexec]
  | reservedOpcode op' => simp
  | reservedOperand b => simp
  | incomplete => simp

/-- Settles O16: an idle step refuses just the opcodes the decoder does not know, and those are the ones past the
table. -/
theorem reservedOpcodesRefused : Obligations.ReservedOpcodesRefused := by
  refine ⟨fun s op bs hidle hport hop => ?_, fun s op op' bs hidle hport hop => ?_⟩
  · rw [step_reservedOpcode_iff hidle, hport, decode_reservedOpcode hop]
  · rw [Ne, step_reservedOpcode_iff hidle, hport]
    exact decode_ne_reservedOpcode hop bs op'

/-! ## Words of the spec's table V9 -/

theorem decode_encode_nil {i : Instr} (hwf : i.wf = true) : decode (encode i) = .instr i [] := by
  simpa using decode_encode hwf []

/-- Settles O18: seven of the words are the encodings of what they stand for, and the round trip reads them back; the
others are a reserved operand, an opcode past the table, and a text without its terminator. -/
theorem specWordsDecode : Obligations.SpecWordsDecode :=
  ⟨decode_encode_nil (i := .init) rfl, decode_encode_nil (i := .setAddress 0x27) rfl,
    decode_setAddress_reserved rfl [], decode_encode_nil (i := .goto 1 2) rfl,
    decode_encode_nil (i := .putChar 0x41) rfl, decode_encode_nil (i := .print [0x4F, 0x4B]) rfl,
    decode_encode_nil (i := .printAt 16 2 []) rfl, decode_encode_nil (i := .backlightOff) rfl,
    decode_reservedOpcode (by decide) [],
    decode_of_proper_prefix (i := .print [0x4F, 0x4B]) rfl ⟨[0x00], rfl⟩ (by decide)⟩

end Sys2Proof.Proofs
end

section
/-! Reads of unwritten registers (spec/10_state.md R29, the spec's decision D5): `ADDR` is drawn at a transmission, `BL`
once for each nibble. -/

namespace Sys2Proof.Proofs

open Sys2Proof.Machine Sys2Proof.Safety Sys2Proof.Laws

/-! ## `ADDR` unwritten -/

theorem sendIdleByte_addrUnwritten {r : Run} (ha : r.regs.addrWritten = false) (hb : r.regs.blWritten = true) :
    sendIdleByte Config.i2cWrite r = emit (.tx (Config.freeAddr r.regs.draws) (blBit r.regs.bl)) (countDraw r) := by
  simp [sendIdleByte, hb, readAddr_unwritten ha]

theorem perform_sendIdleByte_writeBl_addrUnwritten {s : State} (hidle : idle s) (ha : s.regs.addrWritten = false)
    (bl : Bool) :
    perform (fun r => sendIdleByte Config.i2cWrite (writeBl bl r)) s = .next { s with
      regs := { s.regs with bl := bl, blWritten := true, draws := s.regs.draws + 1 }
      trace := s.trace ++ [.tx (Config.freeAddr s.regs.draws) (blBit bl)] } := by
  rw [perform_idle _ hidle, sendIdleByte_addrUnwritten (r := writeBl bl (Run.start s.regs)) ha rfl]; rfl

/-! ## `BL` unwritten -/

/-- One draw serves the three bytes of a nibble (R81). -/
theorem callNibble_blUnwritten {r : Run} (n : Byte) (rs : Bool) (ha : r.regs.addrWritten = true)
    (hb : r.regs.blWritten = false) :
    callNibble Config.i2cWrite n rs r = ⟨(countDraw r).regs, r.slots ++
      (nibbleTrace r.regs.addr n rs (Config.freeBl r.regs.draws)).map (Slot.mk (countDraw r).regs)⟩ := by
  rw [callNibble, readBl_unwritten hb, writeNibble_written (r := countDraw r) n rs _ ha]
  rfl

/-- The two nibbles of a byte draw one after the other. -/
theorem perform_writeByte_blUnwritten {s : State} (hidle : idle s) (ha : s.regs.addrWritten = true)
    (hb : s.regs.blWritten = false) (v : Byte) (isData : Bool) :
    perform (writeByte Config.i2cWrite v isData) s = .next { s with
      regs := { s.regs with rs := isData, rsWritten := true, draws := s.regs.draws + 2 }
      trace := s.trace ++ (nibbleTrace s.regs.addr (hiNibble v) isData (Config.freeBl s.regs.draws)
        ++ nibbleTrace s.regs.addr (loNibble v) isData (Config.freeBl (s.regs.draws + 1))) } := by
  have hhigh := callNibble_blUnwritten (r := writeRs isData (Run.start s.regs)) (hiNibble v) isData ha hb
  rw [perform_idle _ hidle, writeByte_eq, hhigh, callNibble_blUnwritten (loNibble v) isData ha hb]
  rfl

theorem exec_clear_blUnwritten {s : State} (hidle : idle s) (ha : s.regs.addrWritten = true)
    (hb : s.regs.blWritten = false) :
    exec .clear s = .next { s with
      regs := { s.regs with rs := false, rsWritten := true, draws := s.regs.draws + 2 }
      trace := s.trace ++ nibbleTrace s.regs.addr 0x00 false (Config.freeBl s.regs.draws)
        ++ nibbleTrace s.regs.addr 0x10 false (Config.freeBl (s.regs.draws + 1)) ++ [.wait 2000] } := by
  have hseq : exec .clear s = andThen (perform (writeByte Config.i2cWrite cmdClear false) s) (perform (wait tClr)) :=
    perform_seq (appends_wait tClr) s
  rw [hseq, perform_writeByte_blUnwritten hidle ha hb, andThen, ← List.append_assoc]
  exact perform_wait tClr hidle

/-- Settles O2: `backlight_on` draws the address of its one transmission, `clear` the backlight bit of each nibble. -/
theorem unwrittenReadsDrawFreeValues : Obligations.UnwrittenReadsDrawFreeValues :=
  ⟨fun _ hidle ha => perform_sendIdleByte_writeBl_addrUnwritten hidle ha true,
    fun _ hidle ha hb => exec_clear_blUnwritten hidle ha hb⟩

end Sys2Proof.Proofs
end
